-- ==== Sys2Proof/Word.lean ====
section
/-! DEFINITION. The widths of the block's values (spec/00_scope.md R4, R5; spec/10_state.md R15; spec/30_encoding.md
R40 to R42). Every value is an unsigned integer of a stated width, so each is a plain bit vector. -/

namespace Sys2Proof

/-- A character, a byte of `TB` or of `mac`, a CRC data byte, an opcode: 8 bits (R5, R7, R40). -/
abbrev Byte := BitVec 8

/-- The value of one hexadecimal digit: 4 bits (R8). -/
abbrev Nibble := BitVec 4

/-- `arg` of a command word, `val` of a response, an access address: 32 bits (R4, R40, R41). -/
abbrev Word := BitVec 32

/-- A command word `{op[7:0], arg[31:0]}`: 40 bits (R40). -/
abbrev CmdWord := BitVec 40

/-- A `TB` address: a 5-bit unsigned number (R27). -/
abbrev Addr := BitVec 5

/-- The byte-index field `i` of formats IB and I: three bits, of which 0 to 5 are legal (R42, R48). -/
abbrev IndexField := BitVec 3

/-- The CRC shift register: 24 bits (R3, R16). -/
abbrev CrcReg := BitVec 24

/-- The error status register and the mask of `ESR.CLR`: 4 bits (R4, R20, R42). -/
abbrev EsrReg := BitVec 4

end Sys2Proof
end

