-- ==== Sys2Proof/Syntax.lean ====
section
/-! DEFINITION. The 16 commands of the LLH command set (spec/30_encoding.md R44), one constructor per row of
spec/opcode_table.json, with the fields of its format (R42) as operands. -/

namespace Sys2Proof

/-- A command with its operands, as the decoder hands it to the machine (R44, R45). The byte index `i` keeps
its three encoded bits; that it is at most 5 is `Instr.wf` (R48). -/
inductive Instr where
  /-- `NOP` (R93). -/
  | nop
  /-- `ESR.GET` (R94). -/
  | esrGet
  /-- `ESR.CLR m` (R95). -/
  | esrClr (m : EsrReg)
  /-- `CRC.SEED w` (R63). -/
  | crcSeed (w : Word)
  /-- `CRC.BYTE b` (R64). -/
  | crcByte (b : Byte)
  /-- `CRC.GET` (R65). -/
  | crcGet
  /-- `TB.WR a, b` (R69). -/
  | tbWr (a : Addr) (b : Byte)
  /-- `TB.RD a` (R70). -/
  | tbRd (a : Addr)
  /-- `MAC.PARSE w`, `w` the declared length (R75). -/
  | macParse (w : Word)
  /-- `MAC.FMT` (R77). -/
  | macFmt
  /-- `MAC.SETB i, b` (R78). -/
  | macSetb (i : IndexField) (b : Byte)
  /-- `MAC.GETB i`, display order (R79). -/
  | macGetb (i : IndexField)
  /-- `MAC.GETW i`, wire order (R80). -/
  | macGetw (i : IndexField)
  /-- `AA.PARSE w`, `w` the declared length (R85). -/
  | aaParse (w : Word)
  /-- `AA.FMT w`, `w` the access address (R87). -/
  | aaFmt (w : Word)
  /-- `CH.RESOLVE w`, `w` the channel index (R90). -/
  | chResolve (w : Word)
deriving DecidableEq, Repr

end Sys2Proof
end

