-- ==== Sys2Proof/WellFormed.lean ====
section
/-! DEFINITION. Which commands have an encoding (spec/30_encoding.md R48): the byte index of formats IB and I is
at most 5. No other field has a reserved value. -/

namespace Sys2Proof

/-- The byte index is one of the six bytes of a MAC address; 6 and 7 are reserved values (R48). -/
def IndexField.legal (i : IndexField) : Bool := decide (i.toNat ≤ 5)

/-- A command some word encodes. The checks are the three byte indices of R48; every other field is
legal at every value of its width. -/
def Instr.wf : Instr → Bool
  | .nop => true
  | .esrGet => true
  | .esrClr _ => true
  | .crcSeed _ => true
  | .crcByte _ => true
  | .crcGet => true
  | .tbWr _ _ => true
  | .tbRd _ => true
  | .macParse _ => true
  | .macFmt => true
  | .macSetb i _ => IndexField.legal i
  | .macGetb i => IndexField.legal i
  | .macGetw i => IndexField.legal i
  | .aaParse _ => true
  | .aaFmt _ => true
  | .chResolve _ => true

end Sys2Proof
end

