-- ==== Sys2Proof/Decode.lean ====
section
/-! DEFINITION. Command encoding (spec/30_encoding.md): the formats and their reserved bits (R42), the opcode map with
its match and mask columns (R44), the total decoder (R45), the encoder written from the same tables (R42, R53), and the
host's entry `decodeTableWord`. A command word is a 40-bit value on a port and has no byte order (R31). -/

namespace Sys2Proof

/-! ## Formats (R42) -/

/-- The eight formats of R42. -/
inductive Format where
  | Z | W | B | AB | A | M | IB | I
deriving DecidableEq, Repr

/-- The bits of `arg` a format reserves, as a mask: the right column of the second table of R42. -/
def Format.reserved : Format → Word
  | .Z => 0xFFFFFFFF#32
  | .W => 0x00000000#32
  | .B => 0xFFFFFF00#32
  | .AB => 0xFFFFE000#32
  | .A => 0xFFFFFFE0#32
  | .M => 0xFFFFFFF0#32
  | .IB => 0xFFFFF800#32
  | .I => 0xFFFFFFF8#32

/-- The byte index among the fields of a format, for the two formats that have one (R42, R45). -/
def Format.indexOf : Format → Word → Option IndexField
  | .IB, arg => some (arg.extractLsb' 8 3)
  | .I, arg => some (arg.extractLsb' 0 3)
  | .Z, _ => none
  | .W, _ => none
  | .B, _ => none
  | .AB, _ => none
  | .A, _ => none
  | .M, _ => none

/-! ## Fields of a command word (R40, R42, R43) -/

/-- `op = cw[39:32]` (R40). -/
def opField (cw : CmdWord) : Byte := cw.extractLsb' 32 8

/-- `arg = cw[31:0]` (R40). -/
def argField (cw : CmdWord) : Word := cw.extractLsb' 0 32

/-- `b = arg[7:0]` of formats B, AB and IB (R42). -/
def fieldB (arg : Word) : Byte := arg.extractLsb' 0 8

/-- `a = arg[12:8]` of format AB (R42). -/
def fieldAHigh (arg : Word) : Addr := arg.extractLsb' 8 5

/-- `a = arg[4:0]` of format A (R42). -/
def fieldALow (arg : Word) : Addr := arg.extractLsb' 0 5

/-- `m = arg[3:0]` of format M (R42). -/
def fieldM (arg : Word) : EsrReg := arg.extractLsb' 0 4

/-- `i = arg[10:8]` of format IB (R42). -/
def fieldIHigh (arg : Word) : IndexField := arg.extractLsb' 8 3

/-- `i = arg[2:0]` of format I (R42). -/
def fieldILow (arg : Word) : IndexField := arg.extractLsb' 0 3

/-! ## The opcode map (R44) -/

/-- For each of the 16 opcodes, its format and the command its fields make (R44). -/
def opcodeEntry (op : Byte) : Option (Format × (Word → Instr)) :=
  match op with
  | 0x00#8 => some (.Z, fun _ => .nop)
  | 0x01#8 => some (.Z, fun _ => .esrGet)
  | 0x02#8 => some (.M, fun arg => .esrClr (fieldM arg))
  | 0x10#8 => some (.W, fun arg => .crcSeed arg)
  | 0x11#8 => some (.B, fun arg => .crcByte (fieldB arg))
  | 0x12#8 => some (.Z, fun _ => .crcGet)
  | 0x20#8 => some (.AB, fun arg => .tbWr (fieldAHigh arg) (fieldB arg))
  | 0x21#8 => some (.A, fun arg => .tbRd (fieldALow arg))
  | 0x30#8 => some (.W, fun arg => .macParse arg)
  | 0x31#8 => some (.Z, fun _ => .macFmt)
  | 0x32#8 => some (.IB, fun arg => .macSetb (fieldIHigh arg) (fieldB arg))
  | 0x33#8 => some (.I, fun arg => .macGetb (fieldILow arg))
  | 0x34#8 => some (.I, fun arg => .macGetw (fieldILow arg))
  | 0x40#8 => some (.W, fun arg => .aaParse arg)
  | 0x41#8 => some (.W, fun arg => .aaFmt arg)
  | 0x50#8 => some (.W, fun arg => .chResolve arg)
  | _ => none

/-- A row of the opcode map as R44 prints it. `index` is the lowest bit of the field that the extra constraint
bounds by 5, where the row has one. -/
structure OpRow where
  op : Byte
  matchBits : CmdWord
  mask : CmdWord
  index : Option Nat
deriving DecidableEq, Repr

/-- The match and mask columns of R44, transcribed apart from `opcodeEntry` so that each checks the other. -/
def opcodeTable : List OpRow :=
  [⟨0x00, 0x0000000000, 0xFFFFFFFFFF, none⟩,
   ⟨0x01, 0x0100000000, 0xFFFFFFFFFF, none⟩,
   ⟨0x02, 0x0200000000, 0xFFFFFFFFF0, none⟩,
   ⟨0x10, 0x1000000000, 0xFF00000000, none⟩,
   ⟨0x11, 0x1100000000, 0xFFFFFFFF00, none⟩,
   ⟨0x12, 0x1200000000, 0xFFFFFFFFFF, none⟩,
   ⟨0x20, 0x2000000000, 0xFFFFFFE000, none⟩,
   ⟨0x21, 0x2100000000, 0xFFFFFFFFE0, none⟩] ++
  [⟨0x30, 0x3000000000, 0xFF00000000, none⟩,
   ⟨0x31, 0x3100000000, 0xFFFFFFFFFF, none⟩,
   ⟨0x32, 0x3200000000, 0xFFFFFFF800, some 8⟩,
   ⟨0x33, 0x3300000000, 0xFFFFFFFFF8, some 0⟩,
   ⟨0x34, 0x3400000000, 0xFFFFFFFFF8, some 0⟩,
   ⟨0x40, 0x4000000000, 0xFF00000000, none⟩,
   ⟨0x41, 0x4100000000, 0xFF00000000, none⟩,
   ⟨0x50, 0x5000000000, 0xFF00000000, none⟩]

/-- 'A command word cw selects the row when cw & mask = match and the row's extra constraint, if any, holds' (R44). -/
def OpRow.selects (r : OpRow) (cw : CmdWord) : Bool :=
  cw &&& r.mask == r.matchBits &&
    match r.index with
    | none => true
    | some lo => decide ((cw.extractLsb' lo 3).toNat ≤ 5)

/-! ## The decoder (R45, R47 to R49) -/

/-- Why a word is no command. The machine answers every one of them with `IllegalCommand` (R52, R102); the
names only say which check of R45 refused it. -/
inductive Illegal where
  /-- `op` is none of the 16 values of R44 (R49). -/
  | undefinedOpcode (op : Byte)
  /-- A 1 stands in the bits of `arg` the format reserves (R47). -/
  | reservedBits (bits : Word)
  /-- The byte index is 6 or 7 (R48). -/
  | reservedIndex (i : IndexField)
deriving DecidableEq, Repr

/-- The total decoder, its checks in the order of R45. It reads the word and nothing else. -/
def decode (cw : CmdWord) : Except Illegal Instr :=
  let arg := argField cw
  match opcodeEntry (opField cw) with
  | none => .error (.undefinedOpcode (opField cw))
  | some (fmt, build) =>
    if arg &&& fmt.reserved ≠ 0 then .error (.reservedBits (arg &&& fmt.reserved))
    else
      match fmt.indexOf arg with
      | none => .ok (build arg)
      | some i => if IndexField.legal i then .ok (build arg) else .error (.reservedIndex i)

/-! ## The encoder (R42, R44, R53) -/

/-- The opcode of a command (R44). -/
def opcode : Instr → Byte
  | .nop => 0x00
  | .esrGet => 0x01
  | .esrClr _ => 0x02
  | .crcSeed _ => 0x10
  | .crcByte _ => 0x11
  | .crcGet => 0x12
  | .tbWr _ _ => 0x20
  | .tbRd _ => 0x21
  | .macParse _ => 0x30
  | .macFmt => 0x31
  | .macSetb _ _ => 0x32
  | .macGetb _ => 0x33
  | .macGetw _ => 0x34
  | .aaParse _ => 0x40
  | .aaFmt _ => 0x41
  | .chResolve _ => 0x50

/-- `arg` built from the operands, 'all reserved bits 0' (R42, R53). -/
def encodeArg : Instr → Word
  | .nop => 0
  | .esrGet => 0
  | .esrClr m => 0#28 ++ m
  | .crcSeed w => w
  | .crcByte b => 0#24 ++ b
  | .crcGet => 0
  | .tbWr a b => 0#19 ++ a ++ b
  | .tbRd a => 0#27 ++ a
  | .macParse w => w
  | .macFmt => 0
  | .macSetb i b => 0#21 ++ i ++ b
  | .macGetb i => 0#29 ++ i
  | .macGetw i => 0#29 ++ i
  | .aaParse w => w
  | .aaFmt w => w
  | .chResolve w => w

/-- The word of a command: `{op, arg}` (R40, R53). -/
def encode (i : Instr) : CmdWord := opcode i ++ encodeArg i

/-! ## The opcode table's words -/

/-- The command word whose bits, as spec/opcode_table.json numbers them, are the low `nbits` of `w`, with every
bit above them 0. -/
def tableWord (nbits w : Nat) : CmdWord := BitVec.ofNat 40 (w % 2 ^ nbits)

/-- The instruction the decoder reads from a word of spec/opcode_table.json. -/
def decodeTableWord (nbits w : Nat) : Option Instr :=
  match decode (tableWord nbits w) with
  | .ok i => some i
  | .error _ => none

end Sys2Proof
end

