-- ==== Sys2Proof/Machine/State.lean ====
section
/-! DEFINITION. The state of the block, whole (spec/10_state.md R15), with the host's side of its three ports
(R22, R23), and the state after reset (R24). Plain data. -/

namespace Sys2Proof.Machine

/-- The link-layer address register in display order: `b0` is `mac[0]`, the byte written leftmost in the text
form, and `b5` is `mac[5]` (R17). -/
structure Mac where
  b0 : Byte
  b1 : Byte
  b2 : Byte
  b3 : Byte
  b4 : Byte
  b5 : Byte
deriving DecidableEq, Repr

/-- The text buffer `TB` (R19, R27): the bytes that differ from what an unlisted address reads as, by rising
address. -/
abbrev Memory := List Host.Cell

/-- A response `{st[3:0], val[31:0]}` on the port `rsp` (R23, R41). -/
structure Response where
  st : BitVec 4
  val : Word
deriving DecidableEq, Repr

/-- The four errors that reject a command (R97). They are no stops: a rejected command is answered and the next
one is performed (R106, R107, R124). -/
inductive Err where
  /-- Code 1 (R98). -/
  | invalidLength
  /-- Code 2 (R99). -/
  | invalidCharacter
  /-- Code 3 (R100). -/
  | invalidChannel
  /-- Code 4 (R102). -/
  | illegalCommand
deriving DecidableEq, Repr

/-- The machine never stops with a fault: 'The block has no fault in the sense of a state from which the run
cannot go on' (R124; R107, R123). Nobody raises one, so there is no constructor (log entry 8). -/
inductive Fault where
deriving DecidableEq, Repr

/-- Why the model would give a command no meaning. -/
inductive Refusal where
  /-- A command of the table without a meaning; `exec`'s arm would raise it. Safe. No arm does: all 16 commands
  are modelled (log entry 8). -/
  | notModelled (mnemonic : String)
deriving DecidableEq, Repr

/-- The state: the block's 332 bits (R15), then what stands at its ports. `pc`, `prog`, `rsps` and `rstAt` are
the host's (R22, R23, R121; log entries 1 and 2). -/
structure State where
  /-- The CRC shift register (R16). -/
  crc : CrcReg
  /-- The link-layer address register (R17). -/
  mac : Mac
  /-- The text buffer (R19). -/
  tb : Memory
  /-- The sticky error flags: bit 0 `LEN`, 1 `CHR`, 2 `CHN`, 3 `ILL` (R20). -/
  esr : EsrReg
  /-- The index in `prog` of the next command word (R22). -/
  pc : Nat
  /-- The command words the host presents, first to last (R22; port `cmd`, R23). -/
  prog : List CmdWord
  /-- The responses given so far, oldest first (R22, R121; port `rsp`, R23). -/
  rsps : List Response
  /-- The values of `pc` at which the host asserts `rst`, once for each entry, in order (port `rst`, R23, R113,
  R115, R122; log entry 2). -/
  rstAt : List Nat
deriving DecidableEq, Repr

/-- The machine right after reset: every bit of `crc`, `mac`, `TB` and `esr` is zero (R24), `pc` is 0 (R114), and
the host has presented nothing (log entry 4). -/
def State.reset : State where
  crc := 0
  mac := ⟨0, 0, 0, 0, 0, 0⟩
  tb := []
  esr := 0
  pc := 0
  prog := []
  rsps := []
  rstAt := []

end Sys2Proof.Machine
end

