-- ==== Sys2Proof/Machine/Flags.lean ====
section
/-! DEFINITION. The status codes and the four sticky flags of `esr` (spec/60_exceptions.md R97; spec/10_state.md R20). The
block has no other flag (R21). -/

namespace Sys2Proof.Machine

/-- The status code of an error (R97). -/
def Err.code : Err → BitVec 4
  | .invalidLength => 1
  | .invalidCharacter => 2
  | .invalidChannel => 3
  | .illegalCommand => 4

/-- The bit of `esr` an error of code `k` sets: `k - 1` (R20, R101). -/
def Err.flagBit (e : Err) : Nat := e.code.toNat - 1

/-- `esr[code - 1] <- 1`; 'already-set bits stay set' (R20, R101). -/
def setFlag (e : Err) (esr : EsrReg) : EsrReg := esr ||| (1#4 <<< e.flagBit)

/-- `esr & ~m`, the 4-bit complement (R95). -/
def clearFlags (m : EsrReg) (esr : EsrReg) : EsrReg := esr &&& ~~~m

end Sys2Proof.Machine
end

