-- ==== Sys2Proof/Machine/Params.lean ====
section
/-! DEFINITION. The numbers the spec fixes (spec/00_scope.md R3, R4; status code 0 of spec/60_exceptions.md R97). They are
constants of the block, not parameters. -/

namespace Sys2Proof.Machine

/-- `POLY_MASK`, 'the fixed polynomial mask' (R3). -/
def polyMask : CrcReg := 0x5A6000

/-- The register value whose only 1 is `TOP_BIT`, bit 23: 'the bit ORed in when feedback is set' (R3, R58). -/
def topBit : CrcReg := 0x800000

/-- `SEED_ADV` (R3, R54, R62). -/
def seedAdv : Word := 0xAAAAAA

/-- `SEED_DATA` (R3, R54, R62). -/
def seedData : Word := 0x555555

/-- `MAC_TEXT_LEN` (R3, R72). -/
def macTextLen : Nat := 17

/-- `AA_TEXT_LEN` (R3, R83). -/
def aaTextLen : Nat := 8

/-- `TB_SIZE` (R4, R27). -/
def tbSize : Nat := 32

/-- `ADV_AA`, an access address that denotes advertising channels; 'no rule uses it' (R3). -/
def advAccessAddress : Word := 0x8E89BED6

/-- The channel table, three rows (R3, R89): 'a model must hold the three rows as a table'. -/
def channelTable : List (Word × Word) := [(37, 2402), (38, 2426), (39, 2480)]

/-- Status `OK`, code 0 (R97). -/
def statusOk : BitVec 4 := 0

end Sys2Proof.Machine
end

