-- ==== Sys2Proof/Machine/Ops.lean ====
section
/-! DEFINITION. The named operations on the state: the text buffer's two accesses (spec/20_memory.md R29, R30), the bytes
of `mac`, one setter per register, the two ways a command ends, `respond` and `raise` (spec/00_scope.md R6,
spec/60_exceptions.md R101), and the reset of port `rst` (spec/70_reset_and_hazards.md R113). -/

namespace Sys2Proof.Machine

/-! ## The text buffer (R27, R29, R30) -/

/-- What an address no cell lists reads as: the reset value of every byte of `TB` (R24, R32). -/
def Memory.unlisted : Byte := 0x00

/-- The byte listed under a key, the first if there are several. -/
def Memory.lookup : Memory → Nat → Byte
  | [], _ => Memory.unlisted
  | (k, v) :: rest, key => if k = key then v else Memory.lookup rest key

/-- The cells with every entry of one key taken out. -/
def Memory.erase (m : Memory) (key : Nat) : Memory := m.filter fun c => decide (c.1 ≠ key)

/-- A cell put before the first cell of a greater key. -/
def Memory.insert : Memory → Nat → Byte → Memory
  | [], key, v => [(key, v)]
  | (k, u) :: rest, key, v =>
    if key < k then (key, v) :: (k, u) :: rest else (k, u) :: Memory.insert rest key v

/-- `MemRead(a, 1)`: 'returns the byte TB[a]'; it changes nothing and cannot fail (R29). -/
def Memory.read (m : Memory) (a : Addr) : Byte := Memory.lookup m a.toNat

/-- `MemWrite(a, 1, v)`: 'makes TB[a] = v and leaves the other 31 bytes unchanged' (R30). A value an unlisted
address reads as takes the entry out, so that equal buffers are equal lists (log entry 9). -/
def Memory.write (m : Memory) (a : Addr) (v : Byte) : Memory :=
  if v = Memory.unlisted then Memory.erase m a.toNat
  else Memory.insert (Memory.erase m a.toNat) a.toNat v

/-- The canonical form from a key on: keys strictly rising, each an address of `TB`, no entry equal to what an
unlisted address reads as. -/
def Memory.wfFrom : Nat → Memory → Bool
  | _, [] => true
  | lo, (k, v) :: rest =>
    decide (lo ≤ k) && decide (k < tbSize) && decide (v ≠ Memory.unlisted) && Memory.wfFrom (k + 1) rest

/-- The one canonical form of a text buffer (log entry 9). -/
def Memory.wf (m : Memory) : Bool := Memory.wfFrom 0 m

/-- `MemWrite(p, 1, t p)` for `p` = 0, 1, ..., `n - 1`: how the format commands write their text (R28, R39). -/
def Memory.writeText (m : Memory) (t : Nat → Byte) : Nat → Memory
  | 0 => m
  | n + 1 => Memory.write (Memory.writeText m t n) (BitVec.ofNat 5 n) (t n)

/-! ## The link-layer address register (R17) -/

/-- `mac[k]`, `k` in 0 to 5 (R17). -/
def Mac.get (m : Mac) (k : Fin 6) : Byte :=
  match k with
  | 0 => m.b0
  | 1 => m.b1
  | 2 => m.b2
  | 3 => m.b3
  | 4 => m.b4
  | 5 => m.b5

/-- `mac[k] <- b`; 'the other five bytes are unchanged' (R78). -/
def Mac.set (m : Mac) (k : Fin 6) (b : Byte) : Mac :=
  match k with
  | 0 => { m with b0 := b }
  | 1 => { m with b1 := b }
  | 2 => { m with b2 := b }
  | 3 => { m with b3 := b }
  | 4 => { m with b4 := b }
  | 5 => { m with b5 := b }

/-! ## One setter per register -/

/-- `crc <- v` (R16). -/
def State.setCrc (s : State) (v : CrcReg) : State := { s with crc := v }

/-- `mac <- v`, all six bytes together (R17). -/
def State.setMac (s : State) (v : Mac) : State := { s with mac := v }

/-- `TB <- v` (R19). -/
def State.setTb (s : State) (v : Memory) : State := { s with tb := v }

/-- `esr <- v` (R20). -/
def State.setEsr (s : State) (v : EsrReg) : State := { s with esr := v }

/-- The end every command has: its one response is given and `pc <- pc + 1` (R22, R41, R56). -/
def State.answer (s : State) (st : BitVec 4) (val : Word) : State :=
  { s with rsps := s.rsps ++ [⟨st, val⟩], pc := s.pc + 1 }

/-! ## How a command ends (R6) -/

/-- `respond(st, val)`: 'ends the command with status st and value val' (R6), on the state with the command's
writes applied (R56). -/
def respond (st : BitVec 4) (val : Word) (s : State) : Host.Outcome State Fault Refusal :=
  .next (s.answer st val)

/-- `raise E`, the block's one exception (R101): no write of the command is kept (`s` is the state before it), the
error's bit of `esr` is set, the response is `(k, 0)`. Nothing is saved and control goes nowhere, so there is no
return beside it: 'There is no return-from-trap command and nothing to restore' (R106). -/
def raise (e : Err) (s : State) : Host.Outcome State Fault Refusal :=
  respond e.code 0 (s.setEsr (setFlag e s.esr))

/-! ## The ports (R22, R23, R113) -/

/-- The host asserts `rst` before the next command: the first entry of `rstAt` has been reached by `pc`
(R113, R115; log entry 2). -/
def State.rstDue (s : State) : Bool :=
  match s.rstAt with
  | [] => false
  | k :: _ => decide (k ≤ s.pc)

/-- The host asserts `rst`: 'the whole state (crc, mac, TB, esr) takes the reset values', without a response
(R113). `pc` and `prog` are not reset (R22). The assertion is used up. -/
def State.applyRst (s : State) : State :=
  { s with
    crc := State.reset.crc, mac := State.reset.mac, tb := State.reset.tb, esr := State.reset.esr
    rstAt := s.rstAt.tail }

/-- The command word on port `cmd`: `prog[pc]`, none when the program is at its end (R22, R121). -/
def State.nextWord (s : State) : Option CmdWord := s.prog[s.pc]?

/-- 'Between commands it holds its state and does nothing' (R112): the block when the host presents no word, after
the last command of a program (R121; log entry 3). -/
def hold (s : State) : Host.Outcome State Fault Refusal := .next s

/-- A program with one word put at index `n`, words of zeros (`NOP`) before it where the program is shorter. -/
def placeWord : Nat → CmdWord → List CmdWord → List CmdWord
  | 0, w, [] => [w]
  | 0, w, _ :: rest => w :: rest
  | n + 1, w, [] => 0 :: placeWord n w []
  | n + 1, w, x :: rest => x :: placeWord n w rest

end Sys2Proof.Machine
end

