-- ==== Sys2Proof/Machine/Operands.lean ====
section
/-! DEFINITION. Every operand form of spec/30_encoding.md R42 and R43 as the commands use it: unsigned fields, never
sign-extended or scaled, and the text operand in `TB` (spec/20_memory.md R31, R38). The decoder has already taken the
fields out of the word. -/

namespace Sys2Proof.Machine

/-- A byte index of formats IB and I: one of the six bytes, or none for the reserved values 6 and 7 (R48). -/
def macIndex (i : IndexField) : Option (Fin 6) :=
  if h : i.toNat < 6 then some ⟨i.toNat, h⟩ else none

/-- `w[23:0]` of `CRC.SEED`; 'ignores w[31:24]' (R43, R63). -/
def seedField (w : Word) : CrcReg := w.extractLsb' 0 24

/-- `zext_32(v)` (R5, R41). -/
def zext32 {n : Nat} (v : BitVec n) : Word := v.setWidth 32

/-- The text a parse command reads: character `p` is `TB[p]`, the leftmost at `TB[0]` (R31a, R38). -/
def textOf (s : State) : Nat → Byte := fun p => s.tb.read (BitVec.ofNat 5 p)

end Sys2Proof.Machine
end

