-- ==== Sys2Proof/Config.lean ====
section
/-! DEFINITION. What an implementation fixes and what the spec leaves open. The block takes no parameter
(spec/00_scope.md R4) and nothing in its behaviour is left open (spec/70_reset_and_hazards.md R124). The one thing the
spec calls undefined is a helper function off its domain, which no run evaluates. -/

namespace Sys2Proof

/-- The value of `hexval` at a byte that is not a hex digit: 'undefined otherwise (never evaluated: every use
is guarded by is_hex)' (R8). A free value, log entry 6: it has no body, so no proof can learn it. -/
opaque Config.hexvalOffDomain : Byte → Nibble

end Sys2Proof
end

