-- ==== Sys2Proof/Machine/Text.lean ====
section
/-! DEFINITION. Text and characters (spec/00_scope.md R7 to R10). A text is a function from positions to characters; the
commands look only at the positions of R72 and R83. -/

namespace Sys2Proof.Machine

/-- The separator `:`, ASCII `0x3A` (R7). -/
def colon : Byte := 0x3A

/-- `is_hex(c)` (R8): both cases are accepted. -/
def isHex (c : Byte) : Bool :=
  (decide (0x30 ≤ c.toNat) && decide (c.toNat ≤ 0x39)) ||
  (decide (0x41 ≤ c.toNat) && decide (c.toNat ≤ 0x46)) ||
  (decide (0x61 ≤ c.toNat) && decide (c.toNat ≤ 0x66))

/-- `hexval(c)` (R8). At a byte that is no hex digit it is 'undefined otherwise (never evaluated)': there it is the
free value of Config (log entry 6). -/
def hexval (c : Byte) : Nibble :=
  if 0x30 ≤ c.toNat ∧ c.toNat ≤ 0x39 then BitVec.ofNat 4 (c.toNat - 0x30)
  else if 0x41 ≤ c.toNat ∧ c.toNat ≤ 0x46 then BitVec.ofNat 4 (c.toNat - 0x41 + 10)
  else if 0x61 ≤ c.toNat ∧ c.toNat ≤ 0x66 then BitVec.ofNat 4 (c.toNat - 0x61 + 10)
  else Config.hexvalOffDomain c

/-- `hexchar(v)`: the lower-case digit (R9). -/
def hexchar (v : Nibble) : Byte :=
  if v.toNat ≤ 9 then BitVec.ofNat 8 (0x30 + v.toNat) else BitVec.ofNat 8 (0x61 + (v.toNat - 10))

/-- `byte_of(c_hi, c_lo) = {hexval(c_hi), hexval(c_lo)}`: the first digit is the high nibble (R10). -/
def byteOf (cHi cLo : Byte) : Byte := hexval cHi ++ hexval cLo

/-- A character with an upper-case hex digit made lower case: the canonical spelling that R82(b) and R88(b)
speak of. -/
def lowerHex (c : Byte) : Byte :=
  if 0x41 ≤ c.toNat ∧ c.toNat ≤ 0x46 then BitVec.ofNat 8 (c.toNat + 0x20) else c

end Sys2Proof.Machine
end

