-- ==== Sys2Proof/Machine/AccessAddress.lean ====
section
/-! DEFINITION. The access-address family (spec/43_access_address.md): validation, decoding and formatting of the text
form (R83, R84, R86), and `AA.PARSE`, `AA.FMT`. -/

namespace Sys2Proof.Machine

/-- `aa_validate(n, t)` (R84): none is `OK`. The length is checked first. -/
def aaValidate (n : Word) (t : Nat → Byte) : Option Err :=
  if n.toNat ≠ aaTextLen then some .invalidLength
  else if (List.range aaTextLen).all (fun p => isHex (t p)) then none
  else some .invalidCharacter

/-- `aa_decode(t)` (R84): eight digits side by side, the first the most significant. -/
def aaDecode (t : Nat → Byte) : Word :=
  hexval (t 0) ++ hexval (t 1) ++ hexval (t 2) ++ hexval (t 3) ++
  hexval (t 4) ++ hexval (t 5) ++ hexval (t 6) ++ hexval (t 7)

/-- `aa_format(x)[p] = hexchar(x[31 - 4p : 28 - 4p])`, `p` in 0 to 7 (R86). -/
def aaFormat (x : Word) (p : Nat) : Byte := hexchar (x.extractLsb' (28 - 4 * p) 4)

/-- `AA.PARSE w`: parse the text in `TB[0..7]` as an access address, which the response carries (R85). -/
def execAaParse (w : Word) (s : State) : Host.Outcome State Fault Refusal :=
  match aaValidate w (textOf s) with
  | some e => raise e s
  | none => respond statusOk (aaDecode (textOf s)) s

/-- `AA.FMT w`: `TB[0..7]` takes the eight digits of `w`; the response value is their number (R87). -/
def execAaFmt (w : Word) (s : State) : Host.Outcome State Fault Refusal :=
  respond statusOk (BitVec.ofNat 32 aaTextLen) (s.setTb (s.tb.writeText (aaFormat w) aaTextLen))

end Sys2Proof.Machine
end

