-- ==== Sys2Proof/Machine/Channel.lean ====
section
/-! DEFINITION. The channel family (spec/44_channel.md): the look-up table (R89) and `CH.RESOLVE`. -/

namespace Sys2Proof.Machine

/-- `resolve_channel(index)`: the table's value, none for every index the table does not hold (R89, R91, R92). -/
def resolveChannel (index : Word) : Option Word := channelTable.lookup index

/-- `CH.RESOLVE w`: all 32 bits of `w` are compared (R90). -/
def execChResolve (w : Word) (s : State) : Host.Outcome State Fault Refusal :=
  match resolveChannel w with
  | some freq => respond statusOk freq s
  | none => raise .invalidChannel s

end Sys2Proof.Machine
end

