-- ==== Sys2Proof/Machine/Crc.lean ====
section
/-! DEFINITION. The CRC family (spec/40_crc.md): the bit step, the byte step and the whole function (R58 to R60), and
`CRC.SEED`, `CRC.BYTE`, `CRC.GET`. -/

namespace Sys2Proof.Machine

/-- `crc_bit(s, d)` (R58): the feedback is taken from the register before the shift; the OR and the XOR act on
the register after it. -/
def crcBit (s : CrcReg) (d : Bool) : CrcReg :=
  let feedback := s.getLsbD 0 ^^ d
  let t := s >>> 1
  if feedback then (t ||| topBit) ^^^ polyMask else t

/-- `crc_byte(s, b)` (R59): bit 0 of the byte first, bit 7 last. -/
def crcByte (s : CrcReg) (b : Byte) : CrcReg :=
  [0, 1, 2, 3, 4, 5, 6, 7].foldl (fun r j => crcBit r (b.getLsbD j)) s

/-- `compute_crc(seed, data)` (R57, R60): 'Seed is masked to 24 bits before iteration', bytes in sequence order, no
final XOR. The commands reach it one byte at a time (R66). -/
def computeCrc (seed : Nat) (data : List Byte) : CrcReg :=
  data.foldl crcByte (BitVec.ofNat 24 seed)

/-- `CRC.SEED w`: `crc <- w[23:0]` (R63). -/
def execCrcSeed (w : Word) (s : State) : Host.Outcome State Fault Refusal :=
  respond statusOk 0 (s.setCrc (seedField w))

/-- `CRC.BYTE b`: `crc <- crc_byte(crc, b)` (R64). -/
def execCrcByte (b : Byte) (s : State) : Host.Outcome State Fault Refusal :=
  respond statusOk 0 (s.setCrc (crcByte s.crc b))

/-- `CRC.GET`: `respond(0, zext_32(crc))` (R65). -/
def execCrcGet (s : State) : Host.Outcome State Fault Refusal := respond statusOk (zext32 s.crc) s

end Sys2Proof.Machine
end

