-- ==== Sys2Proof/Machine/MacAddress.lean ====
section
/-! DEFINITION. The MAC address family (spec/42_mac.md): validation, decoding and formatting of the text form (R72 to
R74, R76), wire order (R81), and `MAC.PARSE`, `MAC.FMT`, `MAC.SETB`, `MAC.GETB`, `MAC.GETW`. -/

namespace Sys2Proof.Machine

/-- Check (b) of R73 at one position: a separator where `p mod 3 = 2`, a hex digit elsewhere. -/
def macCharOk (t : Nat → Byte) (p : Nat) : Bool :=
  if p % 3 = 2 then decide (t p = colon) else isHex (t p)

/-- `mac_validate(n, t)` (R73): none is `OK`. The length is checked first, and the characters are looked at only
if it is right (90_conflicts.md C1). -/
def macValidate (n : Word) (t : Nat → Byte) : Option Err :=
  if n.toNat ≠ macTextLen then some .invalidLength
  else if (List.range macTextLen).all (macCharOk t) then none
  else some .invalidCharacter

/-- `mac_decode(t)` (R74): byte `g` from positions `3g` and `3g + 1`, in display order. -/
def macDecode (t : Nat → Byte) : Mac where
  b0 := byteOf (t 0) (t 1)
  b1 := byteOf (t 3) (t 4)
  b2 := byteOf (t 6) (t 7)
  b3 := byteOf (t 9) (t 10)
  b4 := byteOf (t 12) (t 13)
  b5 := byteOf (t 15) (t 16)

/-- `mac_format(m)[p]`, `p` in 0 to 16 (R76): two lower-case digits per byte, high nibble first, `:` between. -/
def macFormat (m : Mac) (p : Nat) : Byte :=
  let group := m.get (Fin.ofNat 6 (p / 3))
  if p % 3 = 0 then hexchar (group.extractLsb' 4 4)
  else if p % 3 = 1 then hexchar (group.extractLsb' 0 4)
  else colon

/-- The index in display order of the byte at a wire position: `5 - k` (R81). -/
def wireIndex (k : Fin 6) : Fin 6 := k.rev

/-- `wire(m)`: the six bytes reversed (R81). -/
def wire (m : Mac) : Mac := ⟨m.b5, m.b4, m.b3, m.b2, m.b1, m.b0⟩

/-- `MAC.PARSE w`: parse the text in `TB[0..16]` into `mac`; on an error `mac` keeps all six bytes (R75). -/
def execMacParse (w : Word) (s : State) : Host.Outcome State Fault Refusal :=
  match macValidate w (textOf s) with
  | some e => raise e s
  | none => respond statusOk 0 (s.setMac (macDecode (textOf s)))

/-- `MAC.FMT`: `TB[0..16]` takes the canonical text of `mac`; the response value is its length (R77). -/
def execMacFmt (s : State) : Host.Outcome State Fault Refusal :=
  respond statusOk (BitVec.ofNat 32 macTextLen) (s.setTb (s.tb.writeText (macFormat s.mac) macTextLen))

/-- `MAC.SETB i, b`: `mac[i] <- b` (R78). Index 6 or 7 is an illegal command (R48; log entry 7). -/
def execMacSetb (i : IndexField) (b : Byte) (s : State) : Host.Outcome State Fault Refusal :=
  match macIndex i with
  | some k => respond statusOk 0 (s.setMac (s.mac.set k b))
  | none => raise .illegalCommand s

/-- `MAC.GETB i`: `respond(0, zext_32(mac[i]))` (R79). Index 6 or 7 is an illegal command (R48; log entry 7). -/
def execMacGetb (i : IndexField) (s : State) : Host.Outcome State Fault Refusal :=
  match macIndex i with
  | some k => respond statusOk (zext32 (s.mac.get k)) s
  | none => raise .illegalCommand s

/-- `MAC.GETW i`: `respond(0, zext_32(mac[5 - i]))` (R80). Index 6 or 7 is an illegal command (R48; log entry 7). -/
def execMacGetw (i : IndexField) (s : State) : Host.Outcome State Fault Refusal :=
  match macIndex i with
  | some k => respond statusOk (zext32 (s.mac.get (wireIndex k))) s
  | none => raise .illegalCommand s

end Sys2Proof.Machine
end

