-- ==== Sys2Proof/Machine/System.lean ====
section
/-! DEFINITION. The system family (spec/45_system.md): `NOP`, `ESR.GET`, `ESR.CLR`. -/

namespace Sys2Proof.Machine

/-- `NOP`: `respond(0, 0)` (R93). -/
def execNop (s : State) : Host.Outcome State Fault Refusal := respond statusOk 0 s

/-- `ESR.GET`: `respond(0, zext_32(esr))`; reading does not clear the flags (R94). -/
def execEsrGet (s : State) : Host.Outcome State Fault Refusal := respond statusOk (zext32 s.esr) s

/-- `ESR.CLR m`: the selected bits are cleared, the response carries the old value (R95). -/
def execEsrClr (m : EsrReg) (s : State) : Host.Outcome State Fault Refusal :=
  respond statusOk (zext32 s.esr) (s.setEsr (clearFlags m s.esr))

end Sys2Proof.Machine
end

