-- ==== Sys2Proof/Machine/TextBuffer.lean ====
section
/-! DEFINITION. The text buffer family (spec/41_text_buffer.md): `TB.WR`, `TB.RD`. The one addressing mode is absolute
(R71). -/

namespace Sys2Proof.Machine

/-- `TB.WR a, b`: `MemWrite(a, 1, b)` (R69). -/
def execTbWr (a : Addr) (b : Byte) (s : State) : Host.Outcome State Fault Refusal :=
  respond statusOk 0 (s.setTb (s.tb.write a b))

/-- `TB.RD a`: `respond(0, zext_32(MemRead(a, 1)))` (R70). -/
def execTbRd (a : Addr) (s : State) : Host.Outcome State Fault Refusal :=
  respond statusOk (zext32 (s.tb.read a)) s

end Sys2Proof.Machine
end

