-- ==== Sys2Proof/Machine/Dispatch.lean ====
section
/-! DEFINITION. One arm per command (spec/30_encoding.md R56: 'perform the rule of d's mnemonic on S with d's fields'). -/

namespace Sys2Proof.Machine

def exec (i : Instr) (s : State) : Host.Outcome State Fault Refusal :=
  match i with
  | .nop => Sys2Proof.Machine.execNop s
  | .esrGet => Sys2Proof.Machine.execEsrGet s
  | .esrClr m => Sys2Proof.Machine.execEsrClr m s
  | .crcSeed w => Sys2Proof.Machine.execCrcSeed w s
  | .crcByte b => Sys2Proof.Machine.execCrcByte b s
  | .crcGet => Sys2Proof.Machine.execCrcGet s
  | .tbWr a b => Sys2Proof.Machine.execTbWr a b s
  | .tbRd a => Sys2Proof.Machine.execTbRd a s
  | .macParse w => Sys2Proof.Machine.execMacParse w s
  | .macFmt => Sys2Proof.Machine.execMacFmt s
  | .macSetb k b => Sys2Proof.Machine.execMacSetb k b s
  | .macGetb k => Sys2Proof.Machine.execMacGetb k s
  | .macGetw k => Sys2Proof.Machine.execMacGetw k s
  | .aaParse w => Sys2Proof.Machine.execAaParse w s
  | .aaFmt w => Sys2Proof.Machine.execAaFmt w s
  | .chResolve w => Sys2Proof.Machine.execChResolve w s

end Sys2Proof.Machine
end

