-- ==== Sys2Proof/Machine/Perform.lean ====
section
/-! DEFINITION. Performing one command word in full (spec/30_encoding.md R56, R52), and a list of words one after the
other (R55; spec/70_reset_and_hazards.md R121). -/

namespace Sys2Proof.Machine

/-- R56's `step(S, cw)`: an illegal word is performed as `raise IllegalCommand` (R52, R102), a legal one by its
rule. -/
def perform (cw : CmdWord) (s : State) : Host.Outcome State Fault Refusal :=
  match decode cw with
  | .ok i => exec i s
  | .error _ => raise .illegalCommand s

/-- Words performed first to last, each exactly once (R55, R121), without the host's side of the ports: the clear
description that a run of `step` is compared with. -/
def performAll : List CmdWord → State → Host.Outcome State Fault Refusal
  | [], s => .next s
  | cw :: rest, s =>
    match perform cw s with
    | .next t => performAll rest t
    | .fault r => .fault r
    | .refused r => .refused r

/-- The same for commands already decoded. -/
def execAll : List Instr → State → Host.Outcome State Fault Refusal
  | [], s => .next s
  | i :: rest, s =>
    match exec i s with
    | .next t => execAll rest t
    | .fault r => .fault r
    | .refused r => .refused r

end Sys2Proof.Machine
end

