-- ==== Sys2Proof/Machine/Step.lean ====
section
/-! DEFINITION. One step of the machine: the host asserts `rst` (spec/70_reset_and_hazards.md R113), or the block performs
the word on port `cmd` (spec/30_encoding.md R56), or the host presents none and the block holds its state (R112, R121). -/

namespace Sys2Proof.Machine

/-- One step. `rst` comes between commands only (R115). -/
def step (s : State) : Host.Outcome State Fault Refusal :=
  if s.rstDue then .next s.applyRst
  else
    match s.nextWord with
    | some cw => perform cw s
    | none => hold s

/-- The state with a word of the opcode table on port `cmd`: it becomes `prog[pc]`, and no `rst` is due before it
(log entry 4). -/
def State.withFetchWord (s : State) (nbits w : Nat) : State :=
  { s with
    prog := placeWord s.pc (tableWord nbits w) s.prog
    rstAt := s.rstAt.dropWhile fun k => decide (k ≤ s.pc) }

end Sys2Proof.Machine
end

