-- ==== Sys2Proof/Machine/Assembler.lean ====
section
/-! DEFINITION. The assembler lines and the three pseudo-instructions of the command set (spec/30_encoding.md R53, R54). A
line is a list of characters; none is an assembler error. What R53 leaves open about blanks is log entry 11. -/

namespace Sys2Proof.Machine

/-! ## Pseudo-instructions (R54) -/

/-- `CRC.ADV`, expanded (R54). -/
def expandCrcAdv : List Instr := [.crcSeed seedAdv]

/-- `CRC.DATA`, expanded (R54). -/
def expandCrcData : List Instr := [.crcSeed seedData]

/-- One `TB.WR` per character from an address on (R54). -/
def tbWritesFrom : Nat → List Byte → List Instr
  | _, [] => []
  | a, c :: rest => .tbWr (BitVec.ofNat 5 a) c :: tbWritesFrom (a + 1) rest

/-- `TB.STR a, "text"`, expanded: 'an assembler error if a plus the number of characters exceeds 32' (R54). -/
def expandTbStr (a : Nat) (text : List Byte) : Option (List Instr) :=
  if a + text.length ≤ tbSize then some (tbWritesFrom a text) else none

/-! ## Operands (R53) -/

/-- An operand within its field's range: 'An operand out of the stated range is an assembler error' (R53). -/
def operandFits (bits n : Nat) : Option (BitVec bits) :=
  if n < 2 ^ bits then some (BitVec.ofNat bits n) else none

/-- A byte index, `i in 0..5` (R53). -/
def indexFits (n : Nat) : Option IndexField := if n ≤ 5 then some (BitVec.ofNat 3 n) else none

/-- A blank between the parts of a line (log entry 11). -/
def isBlank (c : Char) : Bool := c == ' ' || c == '\t'

/-- The characters without the blanks at either end. -/
def trimBlanks (l : List Char) : List Char :=
  ((l.dropWhile isBlank).reverse.dropWhile isBlank).reverse

/-- The double quote, ASCII `0x22`, around the text of `TB.STR` (R54). -/
def quoteChar : Char := Char.ofNat 0x22

/-- The line up to its comment: 'A ; starts a comment that runs to the end of the line' (R53), but not inside the
quoted text of `TB.STR` (log entry 11). -/
def beforeComment : Bool → List Char → List Char
  | _, [] => []
  | quoted, c :: rest =>
    if c = ';' ∧ quoted = false then []
    else c :: beforeComment (if c = quoteChar then !quoted else quoted) rest

/-- The parts of a line between commas. -/
def splitCommas : List Char → List (List Char)
  | [] => [[]]
  | c :: rest =>
    match splitCommas rest with
    | [] => [[c]]
    | part :: parts => if c = ',' then [] :: part :: parts else (c :: part) :: parts

/-- The value of one digit in base 10 or 16. -/
def digitValue (base : Nat) (c : Char) : Option Nat :=
  if 0x30 ≤ c.toNat ∧ c.toNat ≤ 0x39 then some (c.toNat - 0x30)
  else if base = 16 ∧ 0x41 ≤ c.toNat ∧ c.toNat ≤ 0x46 then some (c.toNat - 0x41 + 10)
  else if base = 16 ∧ 0x61 ≤ c.toNat ∧ c.toNat ≤ 0x66 then some (c.toNat - 0x61 + 10)
  else none

/-- Digits read most significant first onto a value. -/
def digitsValue (base : Nat) : Nat → List Char → Option Nat
  | acc, [] => some acc
  | acc, c :: rest =>
    match digitValue base c with
    | some d => digitsValue base (acc * base + d) rest
    | none => none

/-- 'A number in decimal or in hexadecimal with the prefix 0x' (R53). -/
def numberValue : List Char → Option Nat
  | [] => none
  | ['0', 'x'] => none
  | '0' :: 'x' :: rest => digitsValue 16 0 rest
  | l => digitsValue 10 0 l

/-- The numbers among a line's operands, none if one is no number. -/
def numberValues : List (List Char) → Option (List Nat)
  | [] => some []
  | part :: parts =>
    match numberValue (trimBlanks part), numberValues parts with
    | some n, some rest => some (n :: rest)
    | _, _ => none

/-- The operands of a line, 'separated by commas' (R53). -/
def operandValues (l : List Char) : Option (List Nat) :=
  if trimBlanks l = [] then some [] else numberValues (splitCommas l)

/-! ## The mnemonics (R44, R53) -/

/-- The mnemonic of a command, 'in upper case' (R44, R53). -/
def mnemonicOf : Instr → List Char
  | .nop => ['N', 'O', 'P']
  | .esrGet => ['E', 'S', 'R', '.', 'G', 'E', 'T']
  | .esrClr _ => ['E', 'S', 'R', '.', 'C', 'L', 'R']
  | .crcSeed _ => ['C', 'R', 'C', '.', 'S', 'E', 'E', 'D']
  | .crcByte _ => ['C', 'R', 'C', '.', 'B', 'Y', 'T', 'E']
  | .crcGet => ['C', 'R', 'C', '.', 'G', 'E', 'T']
  | .tbWr _ _ => ['T', 'B', '.', 'W', 'R']
  | .tbRd _ => ['T', 'B', '.', 'R', 'D']
  | .macParse _ => ['M', 'A', 'C', '.', 'P', 'A', 'R', 'S', 'E']
  | .macFmt => ['M', 'A', 'C', '.', 'F', 'M', 'T']
  | .macSetb _ _ => ['M', 'A', 'C', '.', 'S', 'E', 'T', 'B']
  | .macGetb _ => ['M', 'A', 'C', '.', 'G', 'E', 'T', 'B']
  | .macGetw _ => ['M', 'A', 'C', '.', 'G', 'E', 'T', 'W']
  | .aaParse _ => ['A', 'A', '.', 'P', 'A', 'R', 'S', 'E']
  | .aaFmt _ => ['A', 'A', '.', 'F', 'M', 'T']
  | .chResolve _ => ['C', 'H', '.', 'R', 'E', 'S', 'O', 'L', 'V', 'E']

/-- The operands of a command as numbers, 'in the order the format lists its fields' (R53). -/
def operandsOf : Instr → List Nat
  | .nop => []
  | .esrGet => []
  | .esrClr m => [m.toNat]
  | .crcSeed w => [w.toNat]
  | .crcByte b => [b.toNat]
  | .crcGet => []
  | .tbWr a b => [a.toNat, b.toNat]
  | .tbRd a => [a.toNat]
  | .macParse w => [w.toNat]
  | .macFmt => []
  | .macSetb i b => [i.toNat, b.toNat]
  | .macGetb i => [i.toNat]
  | .macGetw i => [i.toNat]
  | .aaParse w => [w.toNat]
  | .aaFmt w => [w.toNat]
  | .chResolve w => [w.toNat]

/-- A command with as many operands as its format has fields, each in range (R53). -/
def assembleOperands (pattern : Instr) (ops : List Nat) : Option Instr :=
  match pattern, ops with
  | .nop, [] => some .nop
  | .esrGet, [] => some .esrGet
  | .esrClr _, [m] => (operandFits 4 m).map .esrClr
  | .crcSeed _, [w] => (operandFits 32 w).map .crcSeed
  | .crcByte _, [b] => (operandFits 8 b).map .crcByte
  | .crcGet, [] => some .crcGet
  | .tbWr _ _, [a, b] => (operandFits 5 a).bind fun a' => (operandFits 8 b).map fun b' => .tbWr a' b'
  | .tbRd _, [a] => (operandFits 5 a).map .tbRd
  | .macParse _, [w] => (operandFits 32 w).map .macParse
  | .macFmt, [] => some .macFmt
  | .macSetb _ _, [i, b] => (indexFits i).bind fun i' => (operandFits 8 b).map fun b' => .macSetb i' b'
  | .macGetb _, [i] => (indexFits i).map .macGetb
  | .macGetw _, [i] => (indexFits i).map .macGetw
  | .aaParse _, [w] => (operandFits 32 w).map .aaParse
  | .aaFmt _, [w] => (operandFits 32 w).map .aaFmt
  | .chResolve _, [w] => (operandFits 32 w).map .chResolve
  | _, _ => none

/-- One command of each mnemonic, its operands zero: where the assembler looks a mnemonic up. -/
def mnemonicPatterns : List Instr :=
  [.nop, .esrGet, .esrClr 0, .crcSeed 0, .crcByte 0, .crcGet, .tbWr 0 0, .tbRd 0] ++
  [.macParse 0, .macFmt, .macSetb 0 0, .macGetb 0, .macGetw 0, .aaParse 0, .aaFmt 0, .chResolve 0]

/-- A mnemonic and operands assembled to a command (R53). -/
def assembleInstr (mnemonic : List Char) (ops : List Nat) : Option Instr :=
  match mnemonicPatterns.find? fun i => decide (mnemonicOf i = mnemonic) with
  | some pattern => assembleOperands pattern ops
  | none => none

/-! ## Whole lines (R53, R54) -/

/-- The characters between double quotes as ASCII bytes (R7, R54). -/
def quotedText : List Char → Option (List Byte)
  | [] => none
  | c :: rest =>
    if c = quoteChar then (if rest = [] then some [] else none)
    else if c.toNat < 0x80 then (quotedText rest).map (BitVec.ofNat 8 c.toNat :: ·)
    else none

/-- The operands of `TB.STR`: an address, a comma, a text in double quotes (R54). -/
def assembleTbStr (l : List Char) : Option (List Instr) :=
  match numberValue (trimBlanks (l.takeWhile (· ≠ ','))), trimBlanks ((l.dropWhile (· ≠ ',')).drop 1) with
  | some a, q :: rest => if q = quoteChar then (quotedText rest).bind (expandTbStr a) else none
  | _, _ => none

/-- The commands of one line; a line of blanks and a comment alone has none (R53, R54). -/
def assembleLine (line : List Char) : Option (List Instr) :=
  let text := trimBlanks (beforeComment false line)
  let mnemonic := text.takeWhile fun c => !isBlank c
  let rest := text.dropWhile fun c => !isBlank c
  if text = [] then some []
  else if mnemonic = ['C', 'R', 'C', '.', 'A', 'D', 'V'] then
    (if rest = [] then some expandCrcAdv else none)
  else if mnemonic = ['C', 'R', 'C', '.', 'D', 'A', 'T', 'A'] then
    (if rest = [] then some expandCrcData else none)
  else if mnemonic = ['T', 'B', '.', 'S', 'T', 'R'] then assembleTbStr rest
  else
    match operandValues rest with
    | some ops => (assembleInstr mnemonic ops).map ([·])
    | none => none

/-- The command words of a line: 'The encoding of a line is {op, arg}' (R53). -/
def assembleWords (line : List Char) : Option (List CmdWord) := (assembleLine line).map (·.map encode)

end Sys2Proof.Machine
end

