-- ==== Sys2Proof/Safety.lean ====
section
/-! DEFINITION. The terms claims use: what a response may be (spec/30_encoding.md R41), when a run has ended and when no
command was rejected (spec/70_reset_and_hazards.md R121, R124), two states whose block is the same, and the invariants
that every step keeps. -/

namespace Sys2Proof.Machine

/-- A response of the form R41 allows: the status is 0 to 4, and a rejection carries the value 0 (R41, R97). -/
def Response.wf (r : Response) : Bool := decide (r.st.toNat ≤ 4) && (decide (r.st = 0) || decide (r.val = 0))

/-- The state after a command that succeeded with a value and wrote nothing more: its response is `(0, val)` and
`pc` goes on by one (R6, R22, R41), written out apart from the machine's own `respond`. -/
def State.answeredWith (s : State) (val : Word) : State :=
  { s with pc := s.pc + 1, rsps := s.rsps ++ [⟨0, val⟩] }

/-- The state after a command rejected with status `k`: `esr[k - 1]` is set, the response is `(k, 0)`, `pc` goes on by
one, all else is as it was (R101), written out apart from the machine's own `raise`. -/
def State.rejectedWith (s : State) (k : BitVec 4) : State :=
  { s with esr := s.esr ||| (1#4 <<< (k.toNat - 1)), pc := s.pc + 1, rsps := s.rsps ++ [⟨k, 0⟩] }

/-- The host asserts no `rst` before the next command: the first entry of `rstAt`, if there is one, lies ahead of
`pc` (log entry 2). -/
abbrev State.noRstDue (s : State) : Prop := ∀ k ∈ s.rstAt.head?, s.pc < k

/-- The data bytes among command words: the operands of those that decode to `CRC.BYTE`, in order (R66). -/
def fedBytes (cws : List CmdWord) : List Byte :=
  cws.filterMap fun cw =>
    match decode cw with
    | .ok (.crcByte b) => some b
    | _ => none

/-- The run has ended: `pc` equals the length of `prog` (R22, R121). -/
abbrev State.ended (s : State) : Prop := s.pc = s.prog.length

/-- No command was rejected: every status is `OK` (R124). -/
abbrev State.allAccepted (s : State) : Prop := ∀ r ∈ s.rsps, r.st = 0

/-- The same `(crc, mac, TB, esr)`, the state of R15, whatever the host's side is. -/
abbrev SameBlock (s t : State) : Prop := s.crc = t.crc ∧ s.mac = t.mac ∧ s.tb = t.tb ∧ s.esr = t.esr

/-- The text buffer is in canonical form, `pc` is within the program, each performed word has its response, and every
response is of the form R41 allows (R22, R41; log entry 9). -/
abbrev State.Inv (s : State) : Prop :=
  Memory.wf s.tb = true ∧ s.pc ≤ s.prog.length ∧ s.rsps.length = s.pc ∧ ∀ r ∈ s.rsps, Response.wf r = true

/-- Every flag that is set was set by a rejection that its response reported (R20): the flag of an error is up only
if some response carries the error's code. -/
abbrev State.flagsAccounted (s : State) : Prop :=
  ∀ e ∈ [Err.invalidLength, Err.invalidCharacter, Err.invalidChannel, Err.illegalCommand],
    s.esr.getLsbD e.flagBit = true → ∃ r ∈ s.rsps, r.st = e.code

/-- The state an outcome carries, if it carries one. -/
def stateOf : Host.Outcome State Fault Refusal → Option State
  | .next s => some s
  | .fault _ => none
  | .refused _ => none

/-- The last response of the state an outcome carries. -/
def lastResponse (o : Host.Outcome State Fault Refusal) : Option Response := (stateOf o).bind fun s => s.rsps.getLast?

end Sys2Proof.Machine
end

