-- ==== Sys2Proof/Certificates/Slice0/Obligations.lean ====
section
/-! DEFINITION. The statements for the provers, family by family. Each docstring names the rules of spec/ it formalises; a
clause that rests on the model's own choice names its log entry, and one that rests on an inference the spec marks as its
own quotes the spec's mark. -/

open Sys2Proof Sys2Proof.Machine

/-! ## Words, encoding and decoding (30_encoding.md) -/

/-- One word of every command, written out from the encoding of R44 and R42, decodes to that command. The words are
those of 95_test_vectors.md. -/
def Obligations.WordsOfTheSpecDecode : Prop :=
  decode 0x0000000000 = .ok .nop ∧ decode 0x0100000000 = .ok .esrGet ∧
  decode 0x0200000005 = .ok (.esrClr 5) ∧ decode 0x10FFAAAAAA = .ok (.crcSeed 0xFFAAAAAA) ∧
  decode 0x1100000040 = .ok (.crcByte 0x40) ∧ decode 0x1200000000 = .ok .crcGet ∧
  decode 0x2000001FFF = .ok (.tbWr 31 0xFF) ∧ decode 0x210000001F = .ok (.tbRd 31) ∧
  decode 0x3000000011 = .ok (.macParse 17) ∧ decode 0x3100000000 = .ok .macFmt ∧
  decode 0x32000004AA = .ok (.macSetb 4 0xAA) ∧ decode 0x3300000005 = .ok (.macGetb 5) ∧
  decode 0x3400000002 = .ok (.macGetw 2) ∧ decode 0x4000000008 = .ok (.aaParse 8) ∧
  decode 0x418E89BED6 = .ok (.aaFmt 0x8E89BED6) ∧ decode 0x5000000025 = .ok (.chResolve 37)

/-- Decoding the encoding of a well-formed command gives the command back, with every operand at every value its
field admits (R42, R44, R45, R53). -/
def Obligations.DecodeGivesBackTheEncodedCommand : Prop :=
  ∀ i : Instr, i.wf = true → decode (encode i) = .ok i

/-- Every word that decodes is the encoding of the command it decodes to, and that command is well formed: a legal
word has one meaning and no bit of it is dropped (R42, R44, R45). So the legal words are exactly the encodings of the
well-formed commands, which is what the counts of R51 count. -/
def Obligations.EncodeGivesBackTheDecodedWord : Prop :=
  ∀ (cw : CmdWord) (i : Instr), decode cw = .ok i → i.wf = true ∧ encode i = cw

/-- The match and mask columns of R44 and the decoder of R45 agree: a word decodes exactly when some row selects
it, the row's opcode is that of the decoded command, and no word selects two rows. -/
def Obligations.OpcodeMapAgreesWithDecoder : Prop :=
  (∀ cw : CmdWord, (∃ r ∈ opcodeTable, r.selects cw = true) ↔ ∃ i, decode cw = .ok i) ∧
  (∀ (cw : CmdWord) (i : Instr), ∀ r ∈ opcodeTable,
    r.selects cw = true → decode cw = .ok i → r.op = opcode i) ∧
  (∀ (cw : CmdWord), ∀ r ∈ opcodeTable, ∀ r' ∈ opcodeTable,
    r.selects cw = true → r'.selects cw = true → r = r')

/-- R47, R48, R49: a word is illegal when its opcode is none of the 16, when a bit its format reserves (R42) is 1, or
when its byte index is 6 or 7; a word with none of these decodes. -/
def Obligations.DecoderRefusesExactlyTheIllegalWords : Prop :=
  (∀ cw : CmdWord,
    cw.extractLsb' 32 8 ∉ ([0x00, 0x01, 0x02, 0x10, 0x11, 0x12, 0x20, 0x21, 0x30, 0x31, 0x32, 0x33, 0x34, 0x40,
      0x41, 0x50] : List Byte) → ∃ e, decode cw = .error e) ∧
  (∀ p ∈ ([(0x00, 0xFFFFFFFF), (0x01, 0xFFFFFFFF), (0x02, 0xFFFFFFF0), (0x10, 0), (0x11, 0xFFFFFF00),
      (0x12, 0xFFFFFFFF), (0x20, 0xFFFFE000), (0x21, 0xFFFFFFE0), (0x30, 0), (0x31, 0xFFFFFFFF),
      (0x32, 0xFFFFF800), (0x33, 0xFFFFFFF8), (0x34, 0xFFFFFFF8), (0x40, 0), (0x41, 0), (0x50, 0)] :
      List (Byte × Word)),
    ∀ cw : CmdWord, cw.extractLsb' 32 8 = p.1 →
      (cw.extractLsb' 0 32 &&& p.2 ≠ 0 → ∃ e, decode cw = .error e) ∧
      (p.1 = 0x32 → 6 ≤ (cw.extractLsb' 8 3).toNat → ∃ e, decode cw = .error e) ∧
      (p.1 ∈ ([0x33, 0x34] : List Byte) → 6 ≤ (cw.extractLsb' 0 3).toNat → ∃ e, decode cw = .error e) ∧
      (cw.extractLsb' 0 32 &&& p.2 = 0 → (p.1 = 0x32 → (cw.extractLsb' 8 3).toNat ≤ 5) →
        (p.1 ∈ ([0x33, 0x34] : List Byte) → (cw.extractLsb' 0 3).toNat ≤ 5) → ∃ i, decode cw = .ok i))

/-- R52: an illegal word is answered `(4, 0)`, sets `esr[3]`, leaves `crc`, `mac` and `TB` as they were, and counts as
performed. -/
def Obligations.IllegalWordIsRejected : Prop :=
  ∀ (cw : CmdWord) (s : State), (∃ e, decode cw = .error e) →
    perform cw s = .next { s with esr := s.esr ||| 8, pc := s.pc + 1, rsps := s.rsps ++ [⟨4, 0⟩] }

/-- R53, its operands: a mnemonic with the operands of a well-formed command assembles to that command, and an
operand out of the stated range is an assembler error. -/
def Obligations.AssemblerGivesBackTheCommand : Prop :=
  (∀ i : Instr, i.wf = true → assembleInstr (mnemonicOf i) (operandsOf i) = some i) ∧
  (∀ n : Nat, 16 ≤ n → assembleInstr (mnemonicOf (.esrClr 0)) [n] = none) ∧
  (∀ n : Nat, 256 ≤ n → assembleInstr (mnemonicOf (.crcByte 0)) [n] = none) ∧
  (∀ n b : Nat, 32 ≤ n ∨ 256 ≤ b → assembleInstr (mnemonicOf (.tbWr 0 0)) [n, b] = none) ∧
  (∀ n : Nat, 32 ≤ n → assembleInstr (mnemonicOf (.tbRd 0)) [n] = none) ∧
  (∀ n b : Nat, 6 ≤ n ∨ 256 ≤ b → assembleInstr (mnemonicOf (.macSetb 0 0)) [n, b] = none) ∧
  (∀ n : Nat, 6 ≤ n → assembleInstr (mnemonicOf (.macGetb 0)) [n] = none ∧
    assembleInstr (mnemonicOf (.macGetw 0)) [n] = none) ∧
  (∀ n : Nat, 2 ^ 32 ≤ n → assembleInstr (mnemonicOf (.crcSeed 0)) [n] = none ∧
    assembleInstr (mnemonicOf (.macParse 0)) [n] = none ∧ assembleInstr (mnemonicOf (.aaParse 0)) [n] = none ∧
    assembleInstr (mnemonicOf (.aaFmt 0)) [n] = none ∧ assembleInstr (mnemonicOf (.chResolve 0)) [n] = none)

/-- R54: the three pseudo-instructions expand as its table says; `TB.STR` is an error past address 32, else it writes
character `k` at address `a + k`. -/
def Obligations.PseudoInstructionsExpand : Prop :=
  expandCrcAdv.map encode = [0x1000AAAAAA] ∧ expandCrcData.map encode = [0x1000555555] ∧
  (∀ (a : Nat) (text : List Byte), 32 < a + text.length → expandTbStr a text = none) ∧
  (∀ (a : Nat) (text : List Byte), a + text.length ≤ 32 →
    ∃ l, expandTbStr a text = some l ∧ l.length = text.length ∧
      ∀ (k : Nat) (c : Byte), text[k]? = some c → l[k]? = some (.tbWr (BitVec.ofNat 5 (a + k)) c))

/-! ## Steps, reset and runs (10_state.md R22 to R24, 60_exceptions.md R107, 70_reset_and_hazards.md) -/

/-- A step runs the word on port `cmd`: no `rst` being due, the word `prog[pc]` is performed, as the command it decodes
to or as `raise IllegalCommand`. R56, which the spec marks '[derived: from rule R45, rule R52 and the instruction rules
R63 to R96]'; that the word is `prog[pc]` and the form of `rst` are log entries 1 and 2. -/
def Obligations.StepRunsThePresentedWord : Prop :=
  ∀ (s : State) (cw : CmdWord), s.noRstDue → s.prog[s.pc]? = some cw →
    (∀ i, decode cw = .ok i → step s = exec i s) ∧
    (∀ e, decode cw = .error e → step s = .next (s.rejectedWith 4))

/-- R113: `rst` makes all of `crc`, `mac`, `TB` and `esr` zero, gives no response, and touches neither `pc` nor
`prog`. -/
def Obligations.RstClearsTheBlock : Prop :=
  ∀ s : State,
    s.applyRst.crc = 0 ∧ (∀ k, s.applyRst.mac.get k = 0) ∧ (∀ a, s.applyRst.tb.read a = 0) ∧ s.applyRst.esr = 0 ∧
    s.applyRst.rsps = s.rsps ∧ s.applyRst.pc = s.pc ∧ s.applyRst.prog = s.prog

/-- When the host's next `rst` is due, the step is that reset and uses it up; when none is due and no word is left, the
step holds the state. The list `rstAt` is the model's own (log entry 2); holding at the end is DEDUCED from 'between
commands it holds its state and does nothing' (log entry 3). -/
def Obligations.StepTakesRstOrHolds : Prop :=
  (∀ (s : State) (k : Nat) (rest : List Nat), s.rstAt = k :: rest → k ≤ s.pc →
    step s = .next { s with crc := 0, mac := ⟨0, 0, 0, 0, 0, 0⟩, tb := [], esr := 0, rstAt := rest }) ∧
  (∀ s : State, s.noRstDue → s.prog.length ≤ s.pc → step s = .next s)

/-- R24: after reset every bit of `crc`, `mac`, `TB` and `esr` is zero. -/
def Obligations.ResetStateIsZero : Prop :=
  State.reset.crc = 0 ∧ (∀ k, State.reset.mac.get k = 0) ∧ (∀ a, State.reset.tb.read a = 0) ∧
  State.reset.esr = 0

/-- Every word whatever is performed and answered: one response of the form R41 allows, `pc` on by one, the program and
the host's plan of resets untouched (R22, R41, R52, R107). -/
def Obligations.EveryWordIsAnsweredOnce : Prop :=
  ∀ (cw : CmdWord) (s : State), ∃ t r,
    perform cw s = .next t ∧ t.rsps = s.rsps ++ [r] ∧ t.pc = s.pc + 1 ∧ t.prog = s.prog ∧ t.rstAt = s.rstAt ∧
    r.st.toNat ≤ 4 ∧ (r.st ≠ 0 → r.val = 0)

/-- Every step has a next state: the block never stops (R107, R123, R124). The spec marks R123 '[derived: from
30_encoding.md rules R55 and R56]'; a step past the last word holds the state (log entry 3). -/
def Obligations.EveryStepHasANextState : Prop := ∀ s : State, ∃ t, step s = .next t

/-- Every step keeps the invariant: canonical text buffer (log entry 9), `pc` within the program, as many responses as
words performed, each of the form R41 allows. -/
def Obligations.StepKeepsInv : Prop := ∀ s t : State, s.Inv → step s = .next t → t.Inv

/-- Every step keeps the flags accounted for: a flag of `esr` is set only if some response reported its error (R20:
'A bit is set only by raise'). -/
def Obligations.StepKeepsFlagsAccounted : Prop :=
  ∀ s t : State, s.flagsAccounted → step s = .next t → t.flagsAccounted

/-- The reset state has both invariants. The registers' zeros are R24's; the start with `pc` at 0, no program and no
response is the model's form of it (log entry 4). -/
def Obligations.ResetHasTheInvariants : Prop := State.reset.Inv ∧ State.reset.flagsAccounted

/-- A run of steps is the program performed word by word: from any state with no `rst` planned, as many steps as words
are left end with `pc` at the program's length, one response for each word, and the state that performing the words one
after the other gives; further steps change nothing (R22, R55, R121, R123; the end, log entry 3). -/
def Obligations.RunPerformsTheProgram : Prop :=
  ∀ s : State, s.rstAt = [] → s.pc ≤ s.prog.length → ∃ t,
    performAll (s.prog.drop s.pc) s = .next t ∧
    t.prog = s.prog ∧ t.pc = s.prog.length ∧ t.rsps.length = s.rsps.length + (s.prog.length - s.pc) ∧
    ∀ n, Host.Core.run core (s.prog.length - s.pc + n) s = .next t

/-! ## Errors (60_exceptions.md) -/

/-- R101, with the codes and flags of R97: a rejected command keeps `crc`, `mac` and `TB`, sets the flag of its error, and
answers `(code, 0)`. -/
def Obligations.RaiseRejects : Prop :=
  ∀ s : State,
    raise .invalidLength s = .next { s with esr := s.esr ||| 1, pc := s.pc + 1, rsps := s.rsps ++ [⟨1, 0⟩] } ∧
    raise .invalidCharacter s = .next { s with esr := s.esr ||| 2, pc := s.pc + 1, rsps := s.rsps ++ [⟨2, 0⟩] } ∧
    raise .invalidChannel s = .next { s with esr := s.esr ||| 4, pc := s.pc + 1, rsps := s.rsps ++ [⟨3, 0⟩] } ∧
    raise .illegalCommand s = .next { s with esr := s.esr ||| 8, pc := s.pc + 1, rsps := s.rsps ++ [⟨4, 0⟩] }

/-- R98: status 1 is answered by `MAC.PARSE w` with `w` not 17, by `AA.PARSE w` with `w` not 8, and by nothing else, and
it records only the code and `esr[0]`. -/
def Obligations.InvalidLengthExactly : Prop :=
  ∀ (cw : CmdWord) (s : State), ∃ t r, perform cw s = .next t ∧ t.rsps = s.rsps ++ [r] ∧
    (r.st = 1 ↔ (∃ w, decode cw = .ok (.macParse w) ∧ w ≠ 17) ∨ ∃ w, decode cw = .ok (.aaParse w) ∧ w ≠ 8) ∧
    (r.st = 1 → t = s.rejectedWith 1)

/-- R99: status 2 is answered by `MAC.PARSE 17` when a position of `TB[0..16]` fails its check, by `AA.PARSE 8` when a byte
of `TB[0..7]` is not a hex digit, and by nothing else, and it records only the code and `esr[1]`. -/
def Obligations.InvalidCharacterExactly : Prop :=
  ∀ (cw : CmdWord) (s : State), ∃ t r, perform cw s = .next t ∧ t.rsps = s.rsps ++ [r] ∧
    (r.st = 2 ↔
      (decode cw = .ok (.macParse 17) ∧
        ∃ p < 17, (p % 3 = 2 ∧ textOf s p ≠ 0x3A) ∨ (p % 3 ≠ 2 ∧ isHex (textOf s p) = false)) ∨
      (decode cw = .ok (.aaParse 8) ∧ ∃ p < 8, isHex (textOf s p) = false)) ∧
    (r.st = 2 → t = s.rejectedWith 2)

/-- R100: status 3 is answered by `CH.RESOLVE w` with `w` not 37, 38 or 39, and by nothing else, and it records only the
code and `esr[2]`. -/
def Obligations.InvalidChannelExactly : Prop :=
  ∀ (cw : CmdWord) (s : State), ∃ t r, perform cw s = .next t ∧ t.rsps = s.rsps ++ [r] ∧
    (r.st = 3 ↔ ∃ w, decode cw = .ok (.chResolve w) ∧ w ≠ 37 ∧ w ≠ 38 ∧ w ≠ 39) ∧
    (r.st = 3 → t = s.rejectedWith 3)

/-- R102: status 4 is answered for exactly the words the decoder refuses, it records only the code and `esr[3]`, and no
word of the five format-W opcodes is among them. -/
def Obligations.IllegalCommandExactly : Prop :=
  (∀ (cw : CmdWord) (s : State), ∃ t r, perform cw s = .next t ∧ t.rsps = s.rsps ++ [r] ∧
    (r.st = 4 ↔ ∃ e, decode cw = .error e) ∧ (r.st = 4 → t = s.rejectedWith 4)) ∧
  (∀ cw : CmdWord, cw.extractLsb' 32 8 ∈ ([0x10, 0x30, 0x40, 0x41, 0x50] : List Byte) →
    ∃ i, decode cw = .ok i)

/-- Who writes `esr` (R20): a command that succeeds leaves it alone, but for `ESR.CLR m`, which clears the bits of `m`; a
rejected one sets exactly the bit of the status it reports. -/
def Obligations.EsrWrittenOnlyByRaiseAndClear : Prop :=
  ∀ (cw : CmdWord) (s : State), ∃ t r, perform cw s = .next t ∧ t.rsps = s.rsps ++ [r] ∧
    (r.st = 0 → t.esr = s.esr ∨ ∃ m, decode cw = .ok (.esrClr m) ∧ t.esr = s.esr &&& ~~~m) ∧
    (r.st ≠ 0 → t.esr = s.esr ||| (1#4 <<< (r.st.toNat - 1)))

/-- Who reads `esr` (R20): no command but `ESR.GET` and `ESR.CLR` behaves differently for what `esr` holds. -/
def Obligations.EsrDisturbsNoOtherCommand : Prop :=
  ∀ (i : Instr) (s : State) (e : EsrReg), i ≠ .esrGet → (∀ m, i ≠ .esrClr m) →
    ∃ t e', exec i s = .next t ∧ exec i { s with esr := e } = .next { t with esr := e' }

/-- R14: a command's response and the block's next state are a function of the command word and the block's state, whatever
the host's side holds. -/
def Obligations.CommandsAreDetermined : Prop :=
  ∀ (cw : CmdWord) (s s' : State), SameBlock s s' → ∃ t t' r,
    perform cw s = .next t ∧ perform cw s' = .next t' ∧ SameBlock t t' ∧
    t.rsps = s.rsps ++ [r] ∧ t'.rsps = s'.rsps ++ [r]

/-- The write columns of R26 for `crc`, `mac` and `TB`, which the spec marks '[derived: from the instruction rules R63 to
R96]': every command but those listed leaves the register as it was. -/
def Obligations.OnlyTheListedCommandsWrite : Prop :=
  ∀ (i : Instr) (s : State), ∃ t, exec i s = .next t ∧
    (t.crc = s.crc ∨ (∃ w, i = .crcSeed w) ∨ ∃ b, i = .crcByte b) ∧
    (t.mac = s.mac ∨ i = .macParse 17 ∨ ∃ k b, i = .macSetb k b) ∧
    (t.tb = s.tb ∨ (∃ a b, i = .tbWr a b) ∨ i = .macFmt ∨ ∃ w, i = .aaFmt w)

/-- A command with the reserved byte index 6 or 7, which no word decodes to, is rejected as the illegal word is that would
ask for it (R48; log entry 7). -/
def Obligations.ReservedIndexIsRejected : Prop :=
  ∀ (i : IndexField) (b : Byte) (s : State), 6 ≤ i.toNat →
    exec (.macSetb i b) s = .next (s.rejectedWith 4) ∧ exec (.macGetb i) s = .next (s.rejectedWith 4) ∧
    exec (.macGetw i) s = .next (s.rejectedWith 4)

/-! ## The CRC family (40_crc.md) -/

/-- R58 and R59: the bit step, and the byte step over the eight bits, bit 0 first. -/
def Obligations.CrcStepsAsThePseudocode : Prop :=
  (∀ (s : CrcReg) (d : Bool),
    crcBit s d = if (s.getLsbD 0 ^^ d) = true then ((s >>> 1) ||| 0x800000) ^^^ 0x5A6000 else s >>> 1) ∧
  (∀ (s : CrcReg) (b : Byte),
    crcByte s b =
      crcBit (crcBit (crcBit (crcBit (crcBit (crcBit (crcBit (crcBit s (b.getLsbD 0)) (b.getLsbD 1))
        (b.getLsbD 2)) (b.getLsbD 3)) (b.getLsbD 4)) (b.getLsbD 5)) (b.getLsbD 6)) (b.getLsbD 7))

/-- R60 and R61: the seed is masked to 24 bits, no data gives the seed back, and the bytes are taken in sequence order. -/
def Obligations.ComputeCrcTakesBytesInOrder : Prop :=
  (∀ seed : Nat, (computeCrc seed []).toNat = seed &&& 0xFFFFFF) ∧
  (∀ (seed : Nat) (data : List Byte), computeCrc seed data = computeCrc (seed &&& 0xFFFFFF) data) ∧
  (∀ (seed : Nat) (data : List Byte) (b : Byte),
    computeCrc seed (data ++ [b]) = crcByte (computeCrc seed data) b)

/-- R63: `CRC.SEED w` loads `w[23:0]` and cannot be rejected. -/
def Obligations.CrcSeedLoadsTheRegister : Prop :=
  ∀ (w : Word) (s : State),
    decode (0x10#8 ++ w) = .ok (.crcSeed w) ∧
    exec (.crcSeed w) s = .next ({ s with crc := w.extractLsb' 0 24 }.answeredWith 0)

/-- R64: `CRC.BYTE b` folds one byte into `crc`; with a 1 in `arg[31:8]` it is illegal. -/
def Obligations.CrcByteFoldsOneByte : Prop :=
  ∀ (b : Byte) (s : State),
    decode (0x11#8 ++ (0#24 ++ b)) = .ok (.crcByte b) ∧
    exec (.crcByte b) s = .next ({ s with crc := crcByte s.crc b }.answeredWith 0) ∧
    ∀ cw : CmdWord, cw.extractLsb' 32 8 = 0x11 → cw.extractLsb' 8 24 ≠ 0 →
      perform cw s = .next (s.rejectedWith 4)

/-- R65: `CRC.GET` answers the register, zero-extended, and writes nothing; with a nonzero `arg` it is illegal. -/
def Obligations.CrcGetAnswersTheRegister : Prop :=
  ∀ s : State,
    decode 0x1200000000 = .ok .crcGet ∧
    exec .crcGet s = .next (s.answeredWith (0#8 ++ s.crc)) ∧
    ∀ cw : CmdWord, cw.extractLsb' 32 8 = 0x12 → cw.extractLsb' 0 32 ≠ 0 →
      perform cw s = .next (s.rejectedWith 4)

/-- The commands compute the document's function: from every state, `CRC.SEED seed`, one `CRC.BYTE` per byte and `CRC.GET`
all succeed and the last response is `compute_crc(seed, data)`. R66, which the spec marks '[derived: from rules R60, R63,
R64 and R65]'. -/
def Obligations.CommandsComputeTheCrc : Prop :=
  ∀ (s : State) (seed : Word) (data : List Byte), ∃ t,
    execAll (.crcSeed seed :: data.map Instr.crcByte ++ [.crcGet]) s = .next t ∧
    t.rsps = s.rsps ++ List.replicate (data.length + 1) ⟨0, 0⟩ ++ [⟨0, 0#8 ++ computeCrc seed.toNat data⟩] ∧
    t.crc = computeCrc seed.toNat data ∧ t.mac = s.mac ∧ t.tb = s.tb ∧ t.esr = s.esr

/-- Other commands, and illegal words, may stand anywhere between: performing any words none of which is a `CRC.SEED` folds
exactly the bytes of their `CRC.BYTE`s into `crc`, in order. The second part of R66, marked derived by the spec as the
first. -/
def Obligations.OtherWordsDoNotDisturbTheCrc : Prop :=
  ∀ (cws : List CmdWord) (s : State), (∀ cw ∈ cws, ∀ w, decode cw ≠ .ok (.crcSeed w)) → ∃ t,
    performAll cws s = .next t ∧ t.crc = (fedBytes cws).foldl crcByte s.crc

/-- Linearity over XOR: R67(a), which the spec marks '[derived: from rules R58, R59 and R60]'. -/
def Obligations.CrcIsLinear : Prop :=
  ∀ (s1 s2 : Nat) (d1 d2 : List Byte), d1.length = d2.length →
    computeCrc (s1 ^^^ s2) (List.zipWith (· ^^^ ·) d1 d2) = computeCrc s1 d1 ^^^ computeCrc s2 d2

/-- The bit step can be undone, so two registers never merge under the same data: R67(b), which the spec marks '[derived:
from rules R58, R59 and R60]'. -/
def Obligations.CrcStepsNeverMerge : Prop :=
  (∀ (s : CrcReg) (d : Bool),
    let t := crcBit s d
    s.extractLsb' 1 23 = (t ^^^ (if t.getLsbD 23 = true then 0xDA6000 else 0)).extractLsb' 0 23 ∧
    s.getLsbD 0 = (t.getLsbD 23 ^^ d)) ∧
  (∀ (s1 s2 : Nat) (data : List Byte),
    computeCrc s1 data = computeCrc s2 data → s1 &&& 0xFFFFFF = s2 &&& 0xFFFFFF)

/-- Feeding the result back, low byte first, leaves the register zero: R67(c), which the spec marks '[derived: from rules
R58, R59 and R60]'. -/
def Obligations.CrcResidueIsZero : Prop :=
  ∀ (seed : Nat) (data : List Byte),
    let c := computeCrc seed data
    computeCrc seed (data ++ [c.extractLsb' 0 8, c.extractLsb' 8 8, c.extractLsb' 16 8]) = 0

/-! ## The text buffer family (41_text_buffer.md) -/

/-- R69: `TB.WR a, b` makes `TB[a] = b` and leaves every other byte and all else unchanged; with a 1 in `arg[31:13]` it
is illegal. -/
def Obligations.TbWrStoresOneByte : Prop :=
  ∀ (a : Addr) (b : Byte) (s : State),
    decode (0x20#8 ++ (0#19 ++ a ++ b)) = .ok (.tbWr a b) ∧
    (∃ m : Memory, exec (.tbWr a b) s = .next ({ s with tb := m }.answeredWith 0) ∧
      m.read a = b ∧ ∀ a' : Addr, a' ≠ a → m.read a' = s.tb.read a') ∧
    ∀ cw : CmdWord, cw.extractLsb' 32 8 = 0x20 → cw.extractLsb' 13 19 ≠ 0 →
      perform cw s = .next (s.rejectedWith 4)

/-- R70: `TB.RD a` answers the byte at `a`, zero-extended, and writes nothing; with a 1 in `arg[31:5]` it is illegal. -/
def Obligations.TbRdAnswersOneByte : Prop :=
  ∀ (a : Addr) (s : State),
    decode (0x21#8 ++ (0#27 ++ a)) = .ok (.tbRd a) ∧
    exec (.tbRd a) s = .next (s.answeredWith (0#24 ++ s.tb.read a)) ∧
    ∀ cw : CmdWord, cw.extractLsb' 32 8 = 0x21 → cw.extractLsb' 5 27 ≠ 0 →
      perform cw s = .next (s.rejectedWith 4)

/-- Canonical text buffers with equal bytes are equal lists, so that equal states are equal data. The form is the model's
choice (log entry 9). -/
def Obligations.CanonicalBuffersAreEqual : Prop :=
  ∀ m m' : Memory, Memory.wf m = true → Memory.wf m' = true → (∀ a : Addr, m.read a = m'.read a) → m = m'

/-! ## Text and the MAC address family (00_scope.md R8 to R10, 42_mac.md) -/

/-- R8 and R9: which bytes are hex digits, their values, and the lower-case digit of each value. -/
def Obligations.HexDigits : Prop :=
  (∀ c : Byte, isHex c = true ↔
    c ∈ ([0x30, 0x31, 0x32, 0x33, 0x34, 0x35, 0x36, 0x37, 0x38, 0x39, 0x41, 0x42, 0x43, 0x44, 0x45, 0x46, 0x61,
      0x62, 0x63, 0x64, 0x65, 0x66] : List Byte)) ∧
  (∀ v : Nibble, v.toNat ≤ 9 → hexval (BitVec.ofNat 8 (0x30 + v.toNat)) = v ∧
    hexchar v = BitVec.ofNat 8 (0x30 + v.toNat)) ∧
  (∀ v : Nibble, 10 ≤ v.toNat → hexval (BitVec.ofNat 8 (0x41 + (v.toNat - 10))) = v ∧
    hexval (BitVec.ofNat 8 (0x61 + (v.toNat - 10))) = v ∧ hexchar v = BitVec.ofNat 8 (0x61 + (v.toNat - 10)))

/-- R75 with R73 and R74: `MAC.PARSE w` rejects a wrong length, then a bad character, each time leaving `mac` and `TB` alone; else it
writes all six bytes, group `g` from characters `3g` and `3g + 1` with the first digit high. It is never illegal. -/
def Obligations.MacParseDecodesTheText : Prop :=
  ∀ (w : Word) (s : State),
    decode (0x30#8 ++ w) = .ok (.macParse w) ∧
    (w ≠ 17 → exec (.macParse w) s = .next (s.rejectedWith 1)) ∧
    ((∃ p < 17, (p % 3 = 2 ∧ textOf s p ≠ 0x3A) ∨ (p % 3 ≠ 2 ∧ isHex (textOf s p) = false)) →
      exec (.macParse 17) s = .next (s.rejectedWith 2)) ∧
    ((∀ p < 17, (p % 3 = 2 → textOf s p = 0x3A) ∧ (p % 3 ≠ 2 → isHex (textOf s p) = true)) →
      ∃ m : Mac, exec (.macParse 17) s = .next ({ s with mac := m }.answeredWith 0) ∧
        ∀ g : Fin 6, m.get g = hexval (s.tb.read (BitVec.ofNat 5 (3 * g.val))) ++
          hexval (s.tb.read (BitVec.ofNat 5 (3 * g.val + 1))))

/-- R77 with R76: `MAC.FMT` writes the canonical text of `mac` to `TB[0..16]`, leaves every other byte and all else
unchanged, and answers 17; with a nonzero `arg` it is illegal. -/
def Obligations.MacFmtWritesTheText : Prop :=
  ∀ s : State,
    decode 0x3100000000 = .ok .macFmt ∧
    (∃ m : Memory, exec .macFmt s = .next ({ s with tb := m }.answeredWith 17) ∧
      (∀ g : Fin 6, m.read (BitVec.ofNat 5 (3 * g.val)) = hexchar ((s.mac.get g).extractLsb' 4 4) ∧
        m.read (BitVec.ofNat 5 (3 * g.val + 1)) = hexchar ((s.mac.get g).extractLsb' 0 4)) ∧
      (∀ g < 5, m.read (BitVec.ofNat 5 (3 * g + 2)) = 0x3A) ∧
      ∀ a : Addr, 17 ≤ a.toNat → m.read a = s.tb.read a) ∧
    ∀ cw : CmdWord, cw.extractLsb' 32 8 = 0x31 → cw.extractLsb' 0 32 ≠ 0 →
      perform cw s = .next (s.rejectedWith 4)

/-- R78: `MAC.SETB i, b` writes one byte of `mac` and leaves the other five and all else unchanged; with a 1 in `arg[31:11]`
or an index of 6 or 7 it is illegal. -/
def Obligations.MacSetbWritesOneByte : Prop :=
  ∀ (i : IndexField) (b : Byte) (s : State),
    (i.toNat ≤ 5 → decode (0x32#8 ++ (0#21 ++ i ++ b)) = .ok (.macSetb i b) ∧
      ∃ m : Mac, exec (.macSetb i b) s = .next ({ s with mac := m }.answeredWith 0) ∧
        ∀ k : Fin 6, m.get k = if k.val = i.toNat then b else s.mac.get k) ∧
    ∀ cw : CmdWord, cw.extractLsb' 32 8 = 0x32 →
      cw.extractLsb' 11 21 ≠ 0 ∨ 6 ≤ (cw.extractLsb' 8 3).toNat → perform cw s = .next (s.rejectedWith 4)

/-- R79: `MAC.GETB i` answers byte `i` in display order, zero-extended, and writes nothing; with a 1 in `arg[31:3]` or an
index of 6 or 7 it is illegal. -/
def Obligations.MacGetbAnswersInDisplayOrder : Prop :=
  ∀ (i : IndexField) (s : State),
    (i.toNat ≤ 5 → decode (0x33#8 ++ (0#29 ++ i)) = .ok (.macGetb i) ∧
      ∃ b : Byte, [s.mac.b0, s.mac.b1, s.mac.b2, s.mac.b3, s.mac.b4, s.mac.b5][i.toNat]? = some b ∧
        exec (.macGetb i) s = .next (s.answeredWith (0#24 ++ b))) ∧
    ∀ cw : CmdWord, cw.extractLsb' 32 8 = 0x33 →
      cw.extractLsb' 3 29 ≠ 0 ∨ 6 ≤ (cw.extractLsb' 0 3).toNat → perform cw s = .next (s.rejectedWith 4)

/-- R80: `MAC.GETW i` answers byte `5 - i`, the byte at wire position `i`, zero-extended, and writes nothing; with a 1 in
`arg[31:3]` or an index of 6 or 7 it is illegal. -/
def Obligations.MacGetwAnswersInWireOrder : Prop :=
  ∀ (i : IndexField) (s : State),
    (i.toNat ≤ 5 → decode (0x34#8 ++ (0#29 ++ i)) = .ok (.macGetw i) ∧
      ∃ b : Byte, [s.mac.b5, s.mac.b4, s.mac.b3, s.mac.b2, s.mac.b1, s.mac.b0][i.toNat]? = some b ∧
        exec (.macGetw i) s = .next (s.answeredWith (0#24 ++ b))) ∧
    ∀ cw : CmdWord, cw.extractLsb' 32 8 = 0x34 →
      cw.extractLsb' 3 29 ≠ 0 ∨ 6 ≤ (cw.extractLsb' 0 3).toNat → perform cw s = .next (s.rejectedWith 4)

/-- `MAC.FMT` followed by `MAC.PARSE 17` succeeds from every state and leaves `mac` as it was: R82(a), which the spec marks
'[derived: from rules R73, R74, R76 and 00_scope.md rules R8 and R9]'. -/
def Obligations.MacFormatThenParse : Prop :=
  ∀ s : State, ∃ t, execAll [.macFmt, .macParse 17] s = .next t ∧
    t.rsps = s.rsps ++ [⟨0, 17⟩, ⟨0, 0⟩] ∧ t.mac = s.mac ∧ t.crc = s.crc ∧ t.esr = s.esr ∧
    ∀ a : Addr, 17 ≤ a.toNat → t.tb.read a = s.tb.read a

/-- Formatting what was decoded from a valid text gives the text in lower case: R82(b), which the spec marks '[derived: from
rules R73, R74, R76 and 00_scope.md rules R8 and R9]'. -/
def Obligations.MacFormatOfDecodeIsLowerCase : Prop :=
  ∀ t : Nat → Byte, macValidate 17 t = none → ∀ p < 17, macFormat (macDecode t) p = lowerHex (t p)

/-- R81: wire order is the display order reversed, reversing twice gives the address back, and `MAC.GETW i` answers as
`MAC.GETB (5 - i)` does. -/
def Obligations.WireOrderReverses : Prop :=
  (∀ (m : Mac) (k : Fin 6), (wire m).get k = m.get k.rev) ∧ (∀ m : Mac, wire (wire m) = m) ∧
  (∀ (i : IndexField) (s : State), i.toNat ≤ 5 → exec (.macGetw i) s = exec (.macGetb (5 - i)) s)

/-- The parse commands ignore the bytes of `TB` beyond the text: two buffers that agree on `TB[0..16]` give `MAC.PARSE` the
same effect, and two that agree on `TB[0..7]` give `AA.PARSE` the same (R38). -/
def Obligations.ParseIgnoresBytesBeyondTheText : Prop :=
  ∀ (w : Word) (s : State) (m : Memory),
    ((∀ a : Addr, a.toNat < 17 → m.read a = s.tb.read a) → ∃ t,
      exec (.macParse w) s = .next t ∧ exec (.macParse w) { s with tb := m } = .next { t with tb := m }) ∧
    ((∀ a : Addr, a.toNat < 8 → m.read a = s.tb.read a) → ∃ t,
      exec (.aaParse w) s = .next t ∧ exec (.aaParse w) { s with tb := m } = .next { t with tb := m })

/-- The one hazard of values: after `MAC.FMT` and `AA.FMT w`, `MAC.PARSE 17` is answered `InvalidCharacter` and `mac` keeps its
address, from every state and for every `w`. R118, which the spec marks '[derived: from 10_state.md rule R26]'. -/
def Obligations.SharedBufferHazard : Prop :=
  ∀ (s : State) (w : Word), ∃ t, execAll [.macFmt, .aaFmt w, .macParse 17] s = .next t ∧
    t.rsps = s.rsps ++ [⟨0, 17⟩, ⟨0, 8⟩, ⟨2, 0⟩] ∧ t.mac = s.mac ∧ t.esr = s.esr ||| 2

/-! ## The access-address family (43_access_address.md) -/

/-- R85 with R84: `AA.PARSE w` rejects a wrong length, then a bad character; else it answers the 32-bit value, the first digit
the most significant, and writes nothing. It is never illegal. -/
def Obligations.AaParseAnswersTheValue : Prop :=
  ∀ (w : Word) (s : State),
    decode (0x40#8 ++ w) = .ok (.aaParse w) ∧
    (w ≠ 8 → exec (.aaParse w) s = .next (s.rejectedWith 1)) ∧
    ((∃ p < 8, isHex (textOf s p) = false) → exec (.aaParse 8) s = .next (s.rejectedWith 2)) ∧
    ((∀ p < 8, isHex (textOf s p) = true) →
      ∃ v : Word, exec (.aaParse 8) s = .next (s.answeredWith v) ∧
        ∀ p < 8, v.extractLsb' (28 - 4 * p) 4 = hexval (s.tb.read (BitVec.ofNat 5 p)))

/-- R87 with R86: `AA.FMT w` writes the eight digits of `w` to `TB[0..7]`, the most significant first, leaves every other byte and
all else unchanged, and answers 8. It is never illegal. -/
def Obligations.AaFmtWritesTheDigits : Prop :=
  ∀ (w : Word) (s : State),
    decode (0x41#8 ++ w) = .ok (.aaFmt w) ∧
    ∃ m : Memory, exec (.aaFmt w) s = .next ({ s with tb := m }.answeredWith 8) ∧
      (∀ p < 8, m.read (BitVec.ofNat 5 p) = hexchar (w.extractLsb' (28 - 4 * p) 4)) ∧
      ∀ a : Addr, 8 ≤ a.toNat → m.read a = s.tb.read a

/-- `AA.FMT x` followed by `AA.PARSE 8` answers `(0, x)` from every state: R88(a), which the spec marks '[derived: from rules R84
and R86 and 00_scope.md rules R8 and R9]'. -/
def Obligations.AaFormatThenParse : Prop :=
  ∀ (s : State) (x : Word), ∃ t, execAll [.aaFmt x, .aaParse 8] s = .next t ∧
    t.rsps = s.rsps ++ [⟨0, 8⟩, ⟨0, x⟩] ∧ t.mac = s.mac ∧ t.crc = s.crc ∧ t.esr = s.esr ∧
    ∀ a : Addr, 8 ≤ a.toNat → t.tb.read a = s.tb.read a

/-- Formatting what was decoded from a valid text gives the text in lower case: R88(b), which the spec marks '[derived: from
rules R84 and R86 and 00_scope.md rules R8 and R9]'. -/
def Obligations.AaFormatOfDecodeIsLowerCase : Prop :=
  ∀ t : Nat → Byte, aaValidate 8 t = none → ∀ p < 8, aaFormat (aaDecode t) p = lowerHex (t p)

/-! ## The channel family (44_channel.md) -/

/-- R90: `CH.RESOLVE` answers the table's three values, rejects every other index, comparing all 32 bits, and writes nothing on
success. It is never illegal. -/
def Obligations.ChResolveLooksUpTheTable : Prop :=
  ∀ (w : Word) (s : State),
    decode (0x50#8 ++ w) = .ok (.chResolve w) ∧
    exec (.chResolve w) s =
      .next (if w = 37 then s.answeredWith 2402 else if w = 38 then s.answeredWith 2426
        else if w = 39 then s.answeredWith 2480 else s.rejectedWith 3)

/-! ## The system family (45_system.md) -/

/-- R93: `NOP` answers `(0, 0)` and changes nothing; with a nonzero `arg` it is illegal. -/
def Obligations.NopChangesNothing : Prop :=
  ∀ s : State,
    decode 0x0000000000 = .ok .nop ∧ exec .nop s = .next (s.answeredWith 0) ∧
    ∀ cw : CmdWord, cw.extractLsb' 32 8 = 0x00 → cw.extractLsb' 0 32 ≠ 0 →
      perform cw s = .next (s.rejectedWith 4)

/-- R94: `ESR.GET` answers `esr`, zero-extended, and clears nothing; with a nonzero `arg` it is illegal. -/
def Obligations.EsrGetAnswersTheFlags : Prop :=
  ∀ s : State,
    decode 0x0100000000 = .ok .esrGet ∧ exec .esrGet s = .next (s.answeredWith (0#28 ++ s.esr)) ∧
    ∀ cw : CmdWord, cw.extractLsb' 32 8 = 0x01 → cw.extractLsb' 0 32 ≠ 0 →
      perform cw s = .next (s.rejectedWith 4)

/-- R95: `ESR.CLR m` clears the bits of `esr` that `m` selects, no other, and answers the old value; with a 1 in `arg[31:4]` it
is illegal and clears nothing. -/
def Obligations.EsrClrClearsTheMask : Prop :=
  ∀ (m : EsrReg) (s : State),
    decode (0x02#8 ++ (0#28 ++ m)) = .ok (.esrClr m) ∧
    (∃ e : EsrReg, exec (.esrClr m) s = .next ({ s with esr := e }.answeredWith (0#28 ++ s.esr)) ∧
      ∀ k < 4, e.getLsbD k = (s.esr.getLsbD k && !m.getLsbD k)) ∧
    ∀ cw : CmdWord, cw.extractLsb' 32 8 = 0x02 → cw.extractLsb' 4 28 ≠ 0 →
      perform cw s = .next (s.rejectedWith 4)
end

