-- ==== Sys2Proof/Laws/Encoding.lean ====
section
/-! SUPPORT. The encoding's laws: a field of a word put together is what was put in, a word is its two halves, and the
decoder's one inversion lemma. -/

namespace Sys2Proof

/-! ## Bits side by side -/

/-- A field's bits and the bits above it meet the mask's separately. -/
theorem append_and_append {n m : Nat} (a c : BitVec n) (b d : BitVec m) :
    (a ++ b) &&& (c ++ d) = (a &&& c) ++ (b &&& d) := by
  ext j hj
  simp only [BitVec.getElem_and, BitVec.getElem_append]
  split <;> rfl

theorem extract_low {v w : Nat} (x : BitVec v) (y : BitVec w) : (x ++ y).extractLsb' 0 w = y :=
  (BitVec.extractLsb'_append_eq_of_add_le (by omega)).trans BitVec.extractLsb'_eq_self

theorem extract_above {v w : Nat} (x : BitVec v) (y : BitVec w) (k : Nat) :
    (x ++ y).extractLsb' w k = x.extractLsb' 0 k := by
  rw [BitVec.extractLsb'_append_eq_of_le (Nat.le_refl w)]
  simp

/-! ## The fields of an encoded command -/

@[simp] theorem opField_append (op : Byte) (arg : Word) : opField (op ++ arg) = op :=
  (extract_above op arg 8).trans BitVec.extractLsb'_eq_self

@[simp] theorem argField_append (op : Byte) (arg : Word) : argField (op ++ arg) = arg := extract_low op arg

theorem opField_append_argField (cw : CmdWord) : opField cw ++ argField cw = cw := by
  apply BitVec.eq_of_getLsbD_eq
  intro j hj
  show (opField cw ++ argField cw : BitVec (8 + 32)).getLsbD j = _
  rw [BitVec.getLsbD_append]
  simp only [opField, argField, BitVec.getLsbD_extractLsb']
  by_cases h : j < 32
  · simp [h]
  · have h8 : j - 32 < 8 := by omega
    have e : 32 + (j - 32) = j := by omega
    simp [h, h8, e]

theorem opField_encode (i : Instr) : opField (encode i) = opcode i := opField_append _ _

theorem argField_encode (i : Instr) : argField (encode i) = encodeArg i := argField_append _ _

theorem fieldM_encode (m : EsrReg) : fieldM (encodeArg (.esrClr m)) = m := extract_low _ m

theorem fieldB_encode_crcByte (b : Byte) : fieldB (encodeArg (.crcByte b)) = b := extract_low _ b

theorem fieldB_encode_tbWr (a : Addr) (b : Byte) : fieldB (encodeArg (.tbWr a b)) = b := extract_low _ b

theorem fieldAHigh_encode (a : Addr) (b : Byte) : fieldAHigh (encodeArg (.tbWr a b)) = a :=
  (extract_above (0#19 ++ a) b 5).trans (extract_low _ a)

theorem fieldALow_encode (a : Addr) : fieldALow (encodeArg (.tbRd a)) = a := extract_low _ a

theorem fieldB_encode_macSetb (i : IndexField) (b : Byte) : fieldB (encodeArg (.macSetb i b)) = b := extract_low _ b

theorem fieldIHigh_encode (i : IndexField) (b : Byte) : fieldIHigh (encodeArg (.macSetb i b)) = i :=
  (extract_above (0#21 ++ i) b 3).trans (extract_low _ i)

theorem fieldILow_encode_macGetb (i : IndexField) : fieldILow (encodeArg (.macGetb i)) = i := extract_low _ i

theorem fieldILow_encode_macGetw (i : IndexField) : fieldILow (encodeArg (.macGetw i)) = i := extract_low _ i

/-! ## The decoder -/

/-- Everything the decoder asks of a word it takes (R45). -/
theorem decode_ok_iff (cw : CmdWord) (i : Instr) :
    decode cw = .ok i ↔ ∃ fmt build, opcodeEntry (opField cw) = some (fmt, build) ∧
      argField cw &&& fmt.reserved = 0 ∧
      (∀ k, fmt.indexOf (argField cw) = some k → IndexField.legal k = true) ∧ i = build (argField cw) := by
  constructor
  · intro h
    simp only [decode] at h
    split at h
    · cases h
    · next fmt build he =>
      split at h
      · cases h
      · next hr =>
        refine ⟨fmt, build, he, by simpa using hr, ?_⟩
        split at h
        · next hn => cases h; simp [hn]
        · next k hk =>
          split at h
          · next hl => cases h; simp [hk, hl]
          · cases h
  · rintro ⟨fmt, build, he, hr, hi, rfl⟩
    simp only [decode, he, hr]
    cases hx : fmt.indexOf (argField cw) with
    | none => simp
    | some k => simp [hi k hx]

/-- A word is refused exactly when it is no command. -/
theorem decode_error_iff (cw : CmdWord) : (∃ e, decode cw = .error e) ↔ ¬∃ i, decode cw = .ok i := by
  cases decode cw <;> simp

/-- The opcode map gives each opcode a command of that opcode (R44). -/
theorem opcode_of_entry {op : Byte} {fmt : Format} {build : Word → Instr}
    (h : opcodeEntry op = some (fmt, build)) (arg : Word) : opcode (build arg) = op := by
  unfold opcodeEntry at h
  split at h <;> cases h <;> rfl

end Sys2Proof
end

