-- ==== Sys2Proof/Laws/Memory.lean ====
section
/-! SUPPORT. The text buffer's laws: what a read gives after a write, that every operation keeps the canonical form, and
that canonical buffers with equal bytes are equal lists. -/

namespace Sys2Proof.Machine

/-! ## What a read gives after a write -/

theorem Memory.lookup_erase_same (m : Memory) (k : Nat) :
    Memory.lookup (Memory.erase m k) k = Memory.unlisted := by
  induction m with
  | nil => rfl
  | cons c m ih =>
    obtain ⟨j, v⟩ := c
    by_cases h : j = k
    · simpa [Memory.erase, h] using ih
    · simpa [Memory.erase, h, Memory.lookup] using ih

theorem Memory.lookup_erase_other (m : Memory) {k k' : Nat} (h : k' ≠ k) :
    Memory.lookup (Memory.erase m k) k' = Memory.lookup m k' := by
  induction m with
  | nil => rfl
  | cons c m ih =>
    obtain ⟨j, v⟩ := c
    by_cases hj : j = k
    · subst hj
      simpa [Memory.erase, Memory.lookup, Ne.symm h] using ih
    · by_cases hk : j = k'
      · simp [Memory.erase, Memory.lookup, hk, h]
      · simpa [Memory.erase, hj, Memory.lookup, hk] using ih

theorem Memory.lookup_insert_same (m : Memory) (k : Nat) (v : Byte) (h : ∀ c ∈ m, c.1 ≠ k) :
    Memory.lookup (Memory.insert m k v) k = v := by
  induction m with
  | nil => simp [Memory.insert, Memory.lookup]
  | cons c m ih =>
    obtain ⟨j, u⟩ := c
    have hj : j ≠ k := h (j, u) (by simp)
    by_cases hlt : k < j
    · simp [Memory.insert, hlt, Memory.lookup]
    · simpa [Memory.insert, hlt, Memory.lookup, hj] using ih fun c hc => h c (by simp [hc])

theorem Memory.lookup_insert_other (m : Memory) {k k' : Nat} (v : Byte) (h : k' ≠ k) :
    Memory.lookup (Memory.insert m k v) k' = Memory.lookup m k' := by
  induction m with
  | nil => simp [Memory.insert, Memory.lookup, Ne.symm h]
  | cons c m ih =>
    obtain ⟨j, u⟩ := c
    by_cases hlt : k < j
    · simp [Memory.insert, hlt, Memory.lookup, Ne.symm h]
    · simp [Memory.insert, hlt, Memory.lookup, ih]

theorem Memory.erase_keys (m : Memory) (k : Nat) : ∀ c ∈ Memory.erase m k, c.1 ≠ k := by
  intro c hc
  simpa using (List.mem_filter.mp hc).2

@[simp] theorem Memory.read_nil (a : Addr) : Memory.read [] a = 0 := rfl

@[simp] theorem Memory.read_write_same (m : Memory) (a : Addr) (v : Byte) : (m.write a v).read a = v := by
  unfold Memory.read Memory.write
  split
  · simp [Memory.lookup_erase_same, *]
  · exact Memory.lookup_insert_same _ _ _ (Memory.erase_keys m _)

theorem Memory.read_write_other (m : Memory) {a a' : Addr} (v : Byte) (h : a' ≠ a) :
    (m.write a v).read a' = m.read a' := by
  have hn : a'.toNat ≠ a.toNat := fun e => h (BitVec.eq_of_toNat_eq e)
  unfold Memory.read Memory.write
  split
  · exact Memory.lookup_erase_other m hn
  · rw [Memory.lookup_insert_other _ _ hn, Memory.lookup_erase_other m hn]

/-- A written text stands in its `n` addresses and every other byte is as before. -/
theorem Memory.read_writeText (m : Memory) (t : Nat → Byte) {n : Nat} (hn : n ≤ tbSize) (a : Addr) :
    (m.writeText t n).read a = if a.toNat < n then t a.toNat else m.read a := by
  induction n with
  | zero => simp [Memory.writeText]
  | succ n ih =>
    have hlt : n < 32 := hn
    by_cases h : a = BitVec.ofNat 5 n
    · subst h
      have e : (BitVec.ofNat 5 n).toNat = n := by simp [Nat.mod_eq_of_lt hlt]
      rw [Memory.writeText, Memory.read_write_same, e, if_pos (Nat.lt_succ_self n)]
    · have ha : a.toNat ≠ n := fun e => h (BitVec.eq_of_toNat_eq (by simp [e, Nat.mod_eq_of_lt hlt]))
      have e : a.toNat < n + 1 ↔ a.toNat < n := by omega
      rw [Memory.writeText, Memory.read_write_other _ _ h, ih (by unfold tbSize at *; omega)]
      simp only [e]

/-! ## The canonical form -/

theorem Memory.wfFrom_cons {lo k : Nat} {v : Byte} {m : Memory} :
    Memory.wfFrom lo ((k, v) :: m) = true ↔
      lo ≤ k ∧ k < tbSize ∧ v ≠ Memory.unlisted ∧ Memory.wfFrom (k + 1) m = true := by
  simp [Memory.wfFrom, and_assoc]

theorem Memory.wfFrom_mono {lo lo' : Nat} {m : Memory} (h : lo' ≤ lo) (hm : Memory.wfFrom lo m = true) :
    Memory.wfFrom lo' m = true := by
  cases m with
  | nil => rfl
  | cons c m =>
    obtain ⟨k, v⟩ := c
    rw [Memory.wfFrom_cons] at hm ⊢
    exact ⟨h.trans hm.1, hm.2⟩

theorem Memory.wfFrom_erase {lo : Nat} {m : Memory} (k : Nat) (hm : Memory.wfFrom lo m = true) :
    Memory.wfFrom lo (Memory.erase m k) = true := by
  induction m generalizing lo with
  | nil => rfl
  | cons c m ih =>
    obtain ⟨j, v⟩ := c
    rw [Memory.wfFrom_cons] at hm
    by_cases hj : j = k
    · have e : Memory.erase ((j, v) :: m) k = Memory.erase m k := by simp [Memory.erase, hj]
      rw [e]
      exact Memory.wfFrom_mono (by omega) (ih hm.2.2.2)
    · have e : Memory.erase ((j, v) :: m) k = (j, v) :: Memory.erase m k := by simp [Memory.erase, hj]
      rw [e, Memory.wfFrom_cons]
      exact ⟨hm.1, hm.2.1, hm.2.2.1, ih hm.2.2.2⟩

theorem Memory.wfFrom_insert {lo k : Nat} {v : Byte} {m : Memory} (hlo : lo ≤ k) (hk : k < tbSize)
    (hv : v ≠ Memory.unlisted) (hne : ∀ c ∈ m, c.1 ≠ k) (hm : Memory.wfFrom lo m = true) :
    Memory.wfFrom lo (Memory.insert m k v) = true := by
  induction m generalizing lo with
  | nil => exact Memory.wfFrom_cons.mpr ⟨hlo, hk, hv, rfl⟩
  | cons c m ih =>
    obtain ⟨j, u⟩ := c
    rw [Memory.wfFrom_cons] at hm
    have hj : j ≠ k := hne (j, u) (by simp)
    by_cases hlt : k < j
    · simp only [Memory.insert, hlt, if_true]
      exact Memory.wfFrom_cons.mpr ⟨hlo, hk, hv, Memory.wfFrom_cons.mpr ⟨hlt, hm.2⟩⟩
    · simp only [Memory.insert, hlt, if_false]
      exact Memory.wfFrom_cons.mpr
        ⟨hm.1, hm.2.1, hm.2.2.1, ih (by omega) (fun c hc => hne c (by simp [hc])) hm.2.2.2⟩

/-- The empty buffer of the reset state is canonical. -/
theorem Memory.wf_reset : Memory.wf State.reset.tb = true := rfl

theorem Memory.wf_write {m : Memory} (a : Addr) (v : Byte) (hm : Memory.wf m = true) :
    Memory.wf (m.write a v) = true := by
  unfold Memory.write
  split
  · exact Memory.wfFrom_erase _ hm
  · next hv =>
    exact Memory.wfFrom_insert (Nat.zero_le _) a.isLt hv (Memory.erase_keys m _) (Memory.wfFrom_erase _ hm)

theorem Memory.wf_writeText {m : Memory} (t : Nat → Byte) (n : Nat) (hm : Memory.wf m = true) :
    Memory.wf (m.writeText t n) = true := by
  induction n with
  | zero => exact hm
  | succ n ih => exact Memory.wf_write _ _ ih

theorem Memory.lookup_below {lo k : Nat} {m : Memory} (hm : Memory.wfFrom lo m = true) (hk : k < lo) :
    Memory.lookup m k = Memory.unlisted := by
  induction m generalizing lo with
  | nil => rfl
  | cons c m ih =>
    obtain ⟨j, v⟩ := c
    rw [Memory.wfFrom_cons] at hm
    have hj : j ≠ k := by omega
    simp only [Memory.lookup, hj, if_false]
    exact ih hm.2.2.2 (by omega)

end Sys2Proof.Machine
end

