-- ==== Sys2Proof/Laws/State.lean ====
section
/-! SUPPORT. One lemma per field per update of the state, so that no later proof unfolds a record update. -/

namespace Sys2Proof.Machine

@[simp] theorem State.setCrc_crc (s : State) (v : CrcReg) : (s.setCrc v).crc = v := rfl
@[simp] theorem State.setCrc_mac (s : State) (v : CrcReg) : (s.setCrc v).mac = s.mac := rfl
@[simp] theorem State.setCrc_tb (s : State) (v : CrcReg) : (s.setCrc v).tb = s.tb := rfl
@[simp] theorem State.setCrc_esr (s : State) (v : CrcReg) : (s.setCrc v).esr = s.esr := rfl
@[simp] theorem State.setCrc_pc (s : State) (v : CrcReg) : (s.setCrc v).pc = s.pc := rfl
@[simp] theorem State.setCrc_prog (s : State) (v : CrcReg) : (s.setCrc v).prog = s.prog := rfl
@[simp] theorem State.setCrc_rsps (s : State) (v : CrcReg) : (s.setCrc v).rsps = s.rsps := rfl
@[simp] theorem State.setCrc_rstAt (s : State) (v : CrcReg) : (s.setCrc v).rstAt = s.rstAt := rfl

@[simp] theorem State.setMac_crc (s : State) (v : Mac) : (s.setMac v).crc = s.crc := rfl
@[simp] theorem State.setMac_mac (s : State) (v : Mac) : (s.setMac v).mac = v := rfl
@[simp] theorem State.setMac_tb (s : State) (v : Mac) : (s.setMac v).tb = s.tb := rfl
@[simp] theorem State.setMac_esr (s : State) (v : Mac) : (s.setMac v).esr = s.esr := rfl
@[simp] theorem State.setMac_pc (s : State) (v : Mac) : (s.setMac v).pc = s.pc := rfl
@[simp] theorem State.setMac_prog (s : State) (v : Mac) : (s.setMac v).prog = s.prog := rfl
@[simp] theorem State.setMac_rsps (s : State) (v : Mac) : (s.setMac v).rsps = s.rsps := rfl
@[simp] theorem State.setMac_rstAt (s : State) (v : Mac) : (s.setMac v).rstAt = s.rstAt := rfl

@[simp] theorem State.setTb_crc (s : State) (v : Memory) : (s.setTb v).crc = s.crc := rfl
@[simp] theorem State.setTb_mac (s : State) (v : Memory) : (s.setTb v).mac = s.mac := rfl
@[simp] theorem State.setTb_tb (s : State) (v : Memory) : (s.setTb v).tb = v := rfl
@[simp] theorem State.setTb_esr (s : State) (v : Memory) : (s.setTb v).esr = s.esr := rfl
@[simp] theorem State.setTb_pc (s : State) (v : Memory) : (s.setTb v).pc = s.pc := rfl
@[simp] theorem State.setTb_prog (s : State) (v : Memory) : (s.setTb v).prog = s.prog := rfl
@[simp] theorem State.setTb_rsps (s : State) (v : Memory) : (s.setTb v).rsps = s.rsps := rfl
@[simp] theorem State.setTb_rstAt (s : State) (v : Memory) : (s.setTb v).rstAt = s.rstAt := rfl

@[simp] theorem State.setEsr_crc (s : State) (v : EsrReg) : (s.setEsr v).crc = s.crc := rfl
@[simp] theorem State.setEsr_mac (s : State) (v : EsrReg) : (s.setEsr v).mac = s.mac := rfl
@[simp] theorem State.setEsr_tb (s : State) (v : EsrReg) : (s.setEsr v).tb = s.tb := rfl
@[simp] theorem State.setEsr_esr (s : State) (v : EsrReg) : (s.setEsr v).esr = v := rfl
@[simp] theorem State.setEsr_pc (s : State) (v : EsrReg) : (s.setEsr v).pc = s.pc := rfl
@[simp] theorem State.setEsr_prog (s : State) (v : EsrReg) : (s.setEsr v).prog = s.prog := rfl
@[simp] theorem State.setEsr_rsps (s : State) (v : EsrReg) : (s.setEsr v).rsps = s.rsps := rfl
@[simp] theorem State.setEsr_rstAt (s : State) (v : EsrReg) : (s.setEsr v).rstAt = s.rstAt := rfl

@[simp] theorem State.answer_crc (s : State) (st : BitVec 4) (val : Word) : (s.answer st val).crc = s.crc := rfl
@[simp] theorem State.answer_mac (s : State) (st : BitVec 4) (val : Word) : (s.answer st val).mac = s.mac := rfl
@[simp] theorem State.answer_tb (s : State) (st : BitVec 4) (val : Word) : (s.answer st val).tb = s.tb := rfl
@[simp] theorem State.answer_esr (s : State) (st : BitVec 4) (val : Word) : (s.answer st val).esr = s.esr := rfl
@[simp] theorem State.answer_pc (s : State) (st : BitVec 4) (val : Word) : (s.answer st val).pc = s.pc + 1 := rfl
@[simp] theorem State.answer_prog (s : State) (st : BitVec 4) (val : Word) : (s.answer st val).prog = s.prog := rfl
@[simp] theorem State.answer_rsps (s : State) (st : BitVec 4) (val : Word) : (s.answer st val).rsps = s.rsps ++ [⟨st, val⟩] := rfl
@[simp] theorem State.answer_rstAt (s : State) (st : BitVec 4) (val : Word) : (s.answer st val).rstAt = s.rstAt := rfl

@[simp] theorem State.applyRst_crc (s : State) : s.applyRst.crc = 0 := rfl
@[simp] theorem State.applyRst_mac (s : State) : s.applyRst.mac = ⟨0, 0, 0, 0, 0, 0⟩ := rfl
@[simp] theorem State.applyRst_tb (s : State) : s.applyRst.tb = [] := rfl
@[simp] theorem State.applyRst_esr (s : State) : s.applyRst.esr = 0 := rfl
@[simp] theorem State.applyRst_pc (s : State) : s.applyRst.pc = s.pc := rfl
@[simp] theorem State.applyRst_prog (s : State) : s.applyRst.prog = s.prog := rfl
@[simp] theorem State.applyRst_rsps (s : State) : s.applyRst.rsps = s.rsps := rfl
@[simp] theorem State.applyRst_rstAt (s : State) : s.applyRst.rstAt = s.rstAt.tail := rfl

@[simp] theorem State.reset_crc : State.reset.crc = 0 := rfl
@[simp] theorem State.reset_mac : State.reset.mac = ⟨0, 0, 0, 0, 0, 0⟩ := rfl
@[simp] theorem State.reset_tb : State.reset.tb = [] := rfl
@[simp] theorem State.reset_esr : State.reset.esr = 0 := rfl
@[simp] theorem State.reset_pc : State.reset.pc = 0 := rfl
@[simp] theorem State.reset_prog : State.reset.prog = [] := rfl
@[simp] theorem State.reset_rsps : State.reset.rsps = [] := rfl
@[simp] theorem State.reset_rstAt : State.reset.rstAt = [] := rfl

end Sys2Proof.Machine
end

