-- ==== Sys2Proof/Laws/Exec.lean ====
section
/-! SUPPORT. What each shared operation can do, said once: `respond`, `raise`, a meaning, a performed word, a step. -/

namespace Sys2Proof.Machine

theorem respond_next (st : BitVec 4) (val : Word) (s : State) : respond st val s = .next (s.answer st val) := rfl

theorem raise_next (e : Err) (s : State) :
    raise e s = .next ((s.setEsr (setFlag e s.esr)).answer e.code 0) := rfl

theorem macIndex_of_legal {i : IndexField} (h : IndexField.legal i = true) :
    ∃ k : Fin 6, macIndex i = some k ∧ k.val = i.toNat := by
  have hlt : i.toNat < 6 := by
    have := of_decide_eq_true h
    omega
  exact ⟨⟨i.toNat, hlt⟩, by simp [macIndex, hlt], rfl⟩

theorem macIndex_of_reserved {i : IndexField} (h : IndexField.legal i = false) : macIndex i = none := by
  have hge := of_decide_eq_false h
  have hnot : ¬i.toNat < 6 := by omega
  simp [macIndex, hnot]

/-- A setter's worth of change: the host's side is as before and a canonical buffer stays canonical. -/
def KeepsHost (s u : State) : Prop :=
  u.pc = s.pc ∧ u.prog = s.prog ∧ u.rsps = s.rsps ∧ u.rstAt = s.rstAt ∧
    (Memory.wf s.tb = true → Memory.wf u.tb = true)

theorem KeepsHost.refl (s : State) : KeepsHost s s := ⟨rfl, rfl, rfl, rfl, id⟩

/-- Everything a command can do: it succeeds with its writes applied, no flag of `esr` set, or it is rejected. -/
theorem exec_cases (i : Instr) (s : State) :
    (∃ u val, exec i s = .next (u.answer statusOk val) ∧ KeepsHost s u ∧ u.esr &&& s.esr = u.esr) ∨
      ∃ e, exec i s = raise e s := by
  have ok : ∀ (u : State) (val : Word), KeepsHost s u → u.esr = s.esr →
      exec i s = respond statusOk val u →
      (∃ u val, exec i s = .next (u.answer statusOk val) ∧ KeepsHost s u ∧ u.esr &&& s.esr = u.esr) ∨
        ∃ e, exec i s = raise e s :=
    fun u val hk he h => .inl ⟨u, val, h, hk, by simp [he]⟩
  cases i with
  | nop => exact ok s 0 (KeepsHost.refl s) rfl rfl
  | esrGet => exact ok s _ (KeepsHost.refl s) rfl rfl
  | esrClr m =>
    refine .inl ⟨_, _, rfl, ⟨rfl, rfl, rfl, rfl, id⟩, ?_⟩
    ext j
    simp [clearFlags]
    tauto
  | crcSeed w => exact ok (s.setCrc (seedField w)) 0 ⟨rfl, rfl, rfl, rfl, id⟩ rfl rfl
  | crcByte b => exact ok (s.setCrc (crcByte s.crc b)) 0 ⟨rfl, rfl, rfl, rfl, id⟩ rfl rfl
  | crcGet => exact ok s _ (KeepsHost.refl s) rfl rfl
  | tbWr a b => exact ok (s.setTb (s.tb.write a b)) 0 ⟨rfl, rfl, rfl, rfl, Memory.wf_write a b⟩ rfl rfl
  | tbRd a => exact ok s _ (KeepsHost.refl s) rfl rfl
  | macParse w =>
    cases h : macValidate w (textOf s) with
    | some e => exact .inr ⟨e, by simp [exec, execMacParse, h]⟩
    | none => exact ok (s.setMac (macDecode (textOf s))) 0 ⟨rfl, rfl, rfl, rfl, id⟩ rfl (by simp [exec, execMacParse, h])
  | macFmt => exact ok (s.setTb (s.tb.writeText (macFormat s.mac) macTextLen)) _ ⟨rfl, rfl, rfl, rfl, Memory.wf_writeText _ _⟩ rfl rfl
  | macSetb i b =>
    cases h : macIndex i with
    | some k => exact ok (s.setMac (s.mac.set k b)) 0 ⟨rfl, rfl, rfl, rfl, id⟩ rfl (by simp [exec, execMacSetb, h])
    | none => exact .inr ⟨.illegalCommand, by simp [exec, execMacSetb, h]⟩
  | macGetb i =>
    cases h : macIndex i with
    | some k => exact ok s _ (KeepsHost.refl s) rfl (by simp [exec, execMacGetb, h]; rfl)
    | none => exact .inr ⟨.illegalCommand, by simp [exec, execMacGetb, h]⟩
  | macGetw i =>
    cases h : macIndex i with
    | some k => exact ok s _ (KeepsHost.refl s) rfl (by simp [exec, execMacGetw, h]; rfl)
    | none => exact .inr ⟨.illegalCommand, by simp [exec, execMacGetw, h]⟩
  | aaParse w =>
    cases h : aaValidate w (textOf s) with
    | some e => exact .inr ⟨e, by simp [exec, execAaParse, h]⟩
    | none => exact ok s _ (KeepsHost.refl s) rfl (by simp [exec, execAaParse, h]; rfl)
  | aaFmt w => exact ok (s.setTb (s.tb.writeText (aaFormat w) aaTextLen)) _ ⟨rfl, rfl, rfl, rfl, Memory.wf_writeText _ _⟩ rfl rfl
  | chResolve w =>
    cases h : resolveChannel w with
    | some freq => exact ok s _ (KeepsHost.refl s) rfl (by simp [exec, execChResolve, h]; rfl)
    | none => exact .inr ⟨.invalidChannel, by simp [exec, execChResolve, h]⟩

/-- Everything a performed word can do. -/
theorem perform_cases (cw : CmdWord) (s : State) :
    (∃ i, decode cw = .ok i ∧ perform cw s = exec i s) ∨
      (∃ r, decode cw = .error r) ∧ perform cw s = raise .illegalCommand s := by
  cases h : decode cw with
  | ok i => exact .inl ⟨i, rfl, by simp [perform, h]⟩
  | error r => exact .inr ⟨⟨r, rfl⟩, by simp [perform, h]⟩

/-- Everything a step can do. -/
theorem step_cases (s : State) :
    (s.rstDue = true ∧ step s = .next s.applyRst) ∨
      (s.rstDue = false ∧ ∃ cw, s.nextWord = some cw ∧ step s = perform cw s) ∨
      (s.rstDue = false ∧ s.nextWord = none ∧ step s = .next s) := by
  cases hr : s.rstDue with
  | true => exact .inl ⟨rfl, by simp [step, hr]⟩
  | false =>
    cases hw : s.nextWord with
    | some cw => exact .inr (.inl ⟨rfl, cw, rfl, by simp [step, hr, hw]⟩)
    | none => exact .inr (.inr ⟨rfl, rfl, by simp [step, hr, hw, hold]⟩)

end Sys2Proof.Machine
end

