-- ==== Sys2Proof/Laws/PerInstr.lean ====
section
/-! SUPPORT. A fact about every command as syntax, one lemma per constructor: the encoder leaves every bit of `arg` that
the command's format reserves at 0 (spec/30_encoding.md R42, R53). -/

namespace Sys2Proof.Laws.ReservedZero

/-- The command's opcode is in the opcode map, and its encoded `arg` has no reserved bit set. -/
def Statement (i : Instr) : Prop :=
  ∃ entry, opcodeEntry (opcode i) = some entry ∧ encodeArg i &&& entry.1.reserved = 0

theorem nop : Statement .nop :=
  ⟨_, rfl, by simp [encodeArg]⟩

theorem esrGet : Statement .esrGet :=
  ⟨_, rfl, by simp [encodeArg]⟩

theorem esrClr (m : EsrReg) : Statement (.esrClr m) :=
  ⟨_, rfl, by
    show (0#28 ++ m) &&& (BitVec.allOnes 28 ++ 0#4) = 0
    simp only [Sys2Proof.append_and_append, BitVec.zero_and, BitVec.and_zero]
    rfl⟩

theorem crcSeed (w : Word) : Statement (.crcSeed w) :=
  ⟨_, rfl, by simp [Format.reserved]⟩

theorem crcByte (b : Byte) : Statement (.crcByte b) :=
  ⟨_, rfl, by
    show (0#24 ++ b) &&& (BitVec.allOnes 24 ++ 0#8) = 0
    simp only [Sys2Proof.append_and_append, BitVec.zero_and, BitVec.and_zero]
    rfl⟩

theorem crcGet : Statement .crcGet :=
  ⟨_, rfl, by simp [encodeArg]⟩

theorem tbWr (a : Addr) (b : Byte) : Statement (.tbWr a b) :=
  ⟨_, rfl, by
    show (0#19 ++ a ++ b) &&& (BitVec.allOnes 19 ++ 0#5 ++ 0#8) = 0
    simp only [Sys2Proof.append_and_append, BitVec.zero_and, BitVec.and_zero]
    rfl⟩

theorem tbRd (a : Addr) : Statement (.tbRd a) :=
  ⟨_, rfl, by
    show (0#27 ++ a) &&& (BitVec.allOnes 27 ++ 0#5) = 0
    simp only [Sys2Proof.append_and_append, BitVec.zero_and, BitVec.and_zero]
    rfl⟩

theorem macParse (w : Word) : Statement (.macParse w) :=
  ⟨_, rfl, by simp [Format.reserved]⟩

theorem macFmt : Statement .macFmt :=
  ⟨_, rfl, by simp [encodeArg]⟩

theorem macSetb (i : IndexField) (b : Byte) : Statement (.macSetb i b) :=
  ⟨_, rfl, by
    show (0#21 ++ i ++ b) &&& (BitVec.allOnes 21 ++ 0#3 ++ 0#8) = 0
    simp only [Sys2Proof.append_and_append, BitVec.zero_and, BitVec.and_zero]
    rfl⟩

theorem macGetb (i : IndexField) : Statement (.macGetb i) :=
  ⟨_, rfl, by
    show (0#29 ++ i) &&& (BitVec.allOnes 29 ++ 0#3) = 0
    simp only [Sys2Proof.append_and_append, BitVec.zero_and, BitVec.and_zero]
    rfl⟩

theorem macGetw (i : IndexField) : Statement (.macGetw i) :=
  ⟨_, rfl, by
    show (0#29 ++ i) &&& (BitVec.allOnes 29 ++ 0#3) = 0
    simp only [Sys2Proof.append_and_append, BitVec.zero_and, BitVec.and_zero]
    rfl⟩

theorem aaParse (w : Word) : Statement (.aaParse w) :=
  ⟨_, rfl, by simp [Format.reserved]⟩

theorem aaFmt (w : Word) : Statement (.aaFmt w) :=
  ⟨_, rfl, by simp [Format.reserved]⟩

theorem chResolve (w : Word) : Statement (.chResolve w) :=
  ⟨_, rfl, by simp [Format.reserved]⟩

end Sys2Proof.Laws.ReservedZero
end

