-- ==== Sys2Proof/Laws/Text.lean ====
section
/-! SUPPORT. What the helper functions of the text and channel families answer, said once. -/

namespace Sys2Proof.Machine

theorem isHex_hexchar (v : Nibble) : isHex (hexchar v) = true := by
  revert v
  decide

theorem hexval_hexchar (v : Nibble) : hexval (hexchar v) = v := by
  revert v
  decide

/-- Position `p` of a MAC text fails its check (R73). -/
def MacCharBad (t : Nat → Byte) (p : Nat) : Prop :=
  (p % 3 = 2 ∧ t p ≠ colon) ∨ (p % 3 ≠ 2 ∧ isHex (t p) = false)

theorem macCharOk_eq_false_iff (t : Nat → Byte) (p : Nat) : macCharOk t p = false ↔ MacCharBad t p := by
  unfold macCharOk MacCharBad
  by_cases h : p % 3 = 2 <;> simp [h]

theorem toNat_ne_iff (w : Word) (n : Nat) (hn : n < 2 ^ 32) : w.toNat ≠ n ↔ w ≠ BitVec.ofNat 32 n := by
  rw [not_iff_not]
  constructor
  · intro h
    exact BitVec.eq_of_toNat_eq (by rw [BitVec.toNat_ofNat, Nat.mod_eq_of_lt hn]; exact h)
  · rintro rfl
    rw [BitVec.toNat_ofNat, Nat.mod_eq_of_lt hn]

/-- The three answers of `mac_validate` and when each is given (R73). -/
theorem macValidate_cases (w : Word) (t : Nat → Byte) :
    (w ≠ 17 ∧ macValidate w t = some .invalidLength) ∨
      (w = 17 ∧ macValidate w t = some .invalidCharacter ∧ ∃ p < 17, MacCharBad t p) ∨
      (w = 17 ∧ macValidate w t = none ∧ ∀ p < 17, ¬MacCharBad t p) := by
  have hw := toNat_ne_iff w macTextLen (by decide)
  by_cases h : w.toNat ≠ macTextLen
  · exact .inl ⟨hw.mp h, by simp [macValidate, h]⟩
  · have h17 : w = 17 := by
      by_contra hne
      exact h (hw.mpr hne)
    refine .inr ?_
    unfold macValidate
    rw [if_neg h]
    by_cases ha : (List.range macTextLen).all (macCharOk t) = true
    · refine .inr ⟨h17, by simp [ha], fun p hp hb => ?_⟩
      have := List.all_eq_true.mp ha p (List.mem_range.mpr hp)
      rw [(macCharOk_eq_false_iff t p).mpr hb] at this
      cases this
    · obtain ⟨p, hp, hb⟩ : ∃ p ∈ List.range macTextLen, macCharOk t p = false := by
        simpa [List.all_eq_true] using ha
      exact .inl ⟨h17, by simp [ha], p, List.mem_range.mp hp, (macCharOk_eq_false_iff t p).mp hb⟩

/-- The three answers of `aa_validate` and when each is given (R84). -/
theorem aaValidate_cases (w : Word) (t : Nat → Byte) :
    (w ≠ 8 ∧ aaValidate w t = some .invalidLength) ∨
      (w = 8 ∧ aaValidate w t = some .invalidCharacter ∧ ∃ p < 8, isHex (t p) = false) ∨
      (w = 8 ∧ aaValidate w t = none ∧ ∀ p < 8, isHex (t p) = true) := by
  have hw := toNat_ne_iff w aaTextLen (by decide)
  by_cases h : w.toNat ≠ aaTextLen
  · exact .inl ⟨hw.mp h, by simp [aaValidate, h]⟩
  · have h8 : w = 8 := by
      by_contra hne
      exact h (hw.mpr hne)
    refine .inr ?_
    unfold aaValidate
    rw [if_neg h]
    by_cases ha : (List.range aaTextLen).all (fun p => isHex (t p)) = true
    · exact .inr ⟨h8, by simp [ha], fun p hp => List.all_eq_true.mp ha p (List.mem_range.mpr hp)⟩
    · obtain ⟨p, hp, hb⟩ : ∃ p ∈ List.range aaTextLen, isHex (t p) = false := by
        simpa [List.all_eq_true] using ha
      exact .inl ⟨h8, by simp [ha], p, List.mem_range.mp hp, hb⟩

/-- Byte `g` of a decoded text comes from characters `3g` and `3g + 1` (R74). -/
theorem macDecode_get (t : Nat → Byte) (g : Fin 6) :
    (macDecode t).get g = byteOf (t (3 * g.val)) (t (3 * g.val + 1)) := by
  fin_cases g <;> rfl

theorem Mac.get_set (m : Mac) (k j : Fin 6) (b : Byte) :
    (m.set k b).get j = if j = k then b else m.get j := by
  fin_cases k <;> fin_cases j <;> rfl

/-- The table, row by row (R89, R90). -/
theorem resolveChannel_eq (w : Word) :
    resolveChannel w =
      if w = 37 then some 2402 else if w = 38 then some 2426 else if w = 39 then some 2480 else none := by
  by_cases h37 : w = 37
  · subst h37; rfl
  · by_cases h38 : w = 38
    · subst h38; rfl
    · by_cases h39 : w = 39
      · subst h39; rfl
      · rw [if_neg h37, if_neg h38, if_neg h39]
        have b37 : (w == 37#32) = false := beq_eq_false_iff_ne.mpr h37
        have b38 : (w == 38#32) = false := beq_eq_false_iff_ne.mpr h38
        have b39 : (w == 39#32) = false := beq_eq_false_iff_ne.mpr h39
        simp [resolveChannel, channelTable, List.lookup, b37, b38, b39]

end Sys2Proof.Machine
end

