-- ==== Sys2Proof/Tests/Slice0.lean ====
section
/-! SUPPORT. Tests of one step each. Expected values come from spec/95_test_vectors.md, named at each test, or from the rule
named; and a witness for the hypotheses of each statement of Certificates/Slice0/Obligations.lean that has any. -/

namespace Sys2Proof.Tests

open Sys2Proof.Machine

/-! ## Small states -/

/-- The reset state with a text in `TB` from address 0 on. -/
def withText (l : List Byte) : State :=
  { State.reset with tb := Memory.writeText [] (fun p => l.getD p 0) l.length }

/-- `"22:44:66:88:aa:cc"`, the source's example (S2). -/
def macText : List Byte :=
  [0x32, 0x32, 0x3A, 0x34, 0x34, 0x3A, 0x36, 0x36, 0x3A, 0x38, 0x38, 0x3A, 0x61, 0x61, 0x3A, 0x63, 0x63]

/-- The address of that text. -/
def macBytes : Mac := ⟨0x22, 0x44, 0x66, 0x88, 0xAA, 0xCC⟩

/-- `"8e89bed6"` (V-AA-1). -/
def aaText : List Byte := [0x38, 0x65, 0x38, 0x39, 0x62, 0x65, 0x64, 0x36]

/-- Is a word refused by the decoder? -/
def refuses (cw : CmdWord) : Bool :=
  match decode cw with
  | .ok _ => false
  | .error _ => true

/-- The bytes of `TB` from 0 on in the state an outcome carries. -/
def bytesAfter (n : Nat) (o : Host.Outcome State Fault Refusal) : Option (List Byte) :=
  (stateOf o).map fun s => (List.range n).map fun p => s.tb.read (BitVec.ofNat 5 p)

/-! ## Well-formedness (R48) -/

theorem test_wf_refuses_setb_index_6 : (Instr.macSetb 6 0).wf = false := by decide
theorem test_wf_refuses_getb_index_7 : (Instr.macGetb 7).wf = false := by decide
theorem test_wf_refuses_getw_index_6 : (Instr.macGetw 6).wf = false := by decide
theorem test_wf_takes_index_5 : (Instr.macSetb 5 0xFF).wf = true := by decide

/-! ## Decoding: words written out from R42 and R44 -/

theorem test_decode_nop : decodeTableWord 40 0x0000000000 = some .nop := by decide
theorem test_decode_esrGet : decodeTableWord 40 0x0100000000 = some .esrGet := by decide
theorem test_decode_esrClr : decodeTableWord 40 0x020000000A = some (.esrClr 0xA) := by decide
theorem test_decode_crcSeed : decodeTableWord 40 0x1012345678 = some (.crcSeed 0x12345678) := by decide
theorem test_decode_crcByte : decodeTableWord 40 0x11000000FF = some (.crcByte 0xFF) := by decide
theorem test_decode_crcGet : decodeTableWord 40 0x1200000000 = some .crcGet := by decide
theorem test_decode_tbWr : decodeTableWord 40 0x200000023A = some (.tbWr 2 0x3A) := by decide
theorem test_decode_tbRd : decodeTableWord 40 0x2100000010 = some (.tbRd 16) := by decide
theorem test_decode_macParse : decodeTableWord 40 0x30FFFFFFFF = some (.macParse 0xFFFFFFFF) := by decide
theorem test_decode_macFmt : decodeTableWord 40 0x3100000000 = some .macFmt := by decide
theorem test_decode_macSetb : decodeTableWord 40 0x32000005FF = some (.macSetb 5 0xFF) := by decide
theorem test_decode_macGetb : decodeTableWord 40 0x3300000003 = some (.macGetb 3) := by decide
theorem test_decode_macGetw : decodeTableWord 40 0x3400000005 = some (.macGetw 5) := by decide
theorem test_decode_aaParse : decodeTableWord 40 0x4000000108 = some (.aaParse 0x108) := by decide
theorem test_decode_aaFmt : decodeTableWord 40 0x41ABCDEF01 = some (.aaFmt 0xABCDEF01) := by decide
theorem test_decode_chResolve : decodeTableWord 40 0x5000000125 = some (.chResolve 0x125) := by decide

/-- V-ILL-1 to V-ILL-20: every one is refused. -/
theorem test_illegal_words_refused :
    ([0x0300000000, 0x0F00000000, 0x1300000000, 0x2200000000, 0x3500000000, 0x4200000000, 0x5100000000,
      0x6000000000, 0xFF00000000, 0xFFFFFFFFFF, 0x1200000001, 0x1100000100, 0x2000002000, 0x2100000020,
      0x0200000010, 0x3200000600, 0x3200000700, 0x3300000006, 0x3400000007, 0x3100000001] : List CmdWord).all
      refuses = true := by decide

/-- The encoder writes the words of P5 and V-TB-4. -/
theorem test_encode_words :
    encode (.macSetb 1 0xAD) = 0x32000001AD ∧ encode (.tbWr 31 0xFF) = 0x2000001FFF ∧
      encode (.crcSeed 0xFFAAAAAA) = 0x10FFAAAAAA := by decide

/-! ## The system family (V-SYS) -/

theorem test_nop_keeps_flags :
    (stateOf (exec .nop { State.reset with esr := 10 })).map (·.esr) = some 10 := by decide
theorem test_esrGet_answers_flags :
    lastResponse (exec .esrGet { State.reset with esr := 10 }) = some ⟨0, 10⟩ := by decide
/-- V-SYS-5: the response carries the old value. -/
theorem test_esrClr_answers_old_value :
    lastResponse (exec (.esrClr 5) { State.reset with esr := 15 }) = some ⟨0, 15⟩ := by decide
/-- V-SYS-5: bits 0 and 2 are cleared. -/
theorem test_esrClr_clears_mask :
    (stateOf (exec (.esrClr 5) { State.reset with esr := 15 })).map (·.esr) = some 10 := by decide
/-- V-SYS-11: an illegal `ESR.CLR` clears nothing, sets `esr[3]` and answers `(4, 0)`. -/
theorem test_illegal_esrClr :
    (stateOf (perform 0x020000001F { State.reset with esr := 7 })).map (fun s => (s.esr, s.rsps)) =
      some (15, [⟨4, 0⟩]) := by decide

/-! ## The CRC family (V-CRC) -/

/-- V-CRC-2, four of its rows. -/
theorem test_crcBit_rows :
    crcBit 0xAAAAAA true = 0x8F3555 ∧ crcBit 0x555555 false = 0xF0CAAA ∧ crcBit 0xFFFFFF true = 0x7FFFFF ∧
      crcBit 0x800000 true = 0x9A6000 := by decide
/-- V-CRC-5, three of its entries. -/
theorem test_crcByte_entries :
    crcByte 0xAAAAAA 0xA5 = 0x0902EA ∧ crcByte 0 0x80 = 0xDA6000 ∧ crcByte 0xFFFFFF 0xFF = 0x00FFFF := by decide
/-- V-CRC-9 over `"123456789"`. -/
theorem test_computeCrc_check_value :
    computeCrc 0xAAAAAA [0x31, 0x32, 0x33, 0x34, 0x35, 0x36, 0x37, 0x38, 0x39] = 0xC25A56 := by
  decide +kernel
/-- V-CRC-12: the seed is masked. -/
theorem test_crcSeed_masks :
    (stateOf (exec (.crcSeed 0xFFAAAAAA) State.reset)).map (·.crc) = some 0xAAAAAA := by decide
/-- V-CRC-3. -/
theorem test_crcByte_folds :
    (stateOf (exec (.crcByte 0x40) { State.reset with crc := 0xAAAAAA })).map (·.crc) = some 0x8FAD2A := by decide
/-- P1, command 9. -/
theorem test_crcGet_answers :
    lastResponse (exec .crcGet { State.reset with crc := 0x04E5D3 }) = some ⟨0, 0x0004E5D3⟩ := by decide

/-! ## The text buffer family (V-TB) -/

/-- V-TB-4. -/
theorem test_tbWr_highest_address :
    (stateOf (exec (.tbWr 31 0xFF) State.reset)).map (·.tb) = some [(31, 0xFF)] := by decide
/-- V-TB-6: writing the reset value takes the entry out, and the cells stay in rising order. -/
theorem test_tbWr_overwrites_with_zero :
    (stateOf (exec (.tbWr 3 0) { State.reset with tb := [(1, 7), (3, 8), (9, 9)] })).map (·.tb) =
      some [(1, 7), (9, 9)] := by decide
/-- V-TB-5: zero-extended. -/
theorem test_tbRd_zero_extends :
    lastResponse (exec (.tbRd 31) { State.reset with tb := [(31, 0xFF)] }) = some ⟨0, 0x000000FF⟩ := by decide
/-- V-TB-3: a byte nothing has written. -/
theorem test_tbRd_unwritten : lastResponse (exec (.tbRd 5) State.reset) = some ⟨0, 0⟩ := by decide

/-! ## The MAC address family (V-MAC) -/

/-- V-MAC-1. -/
theorem test_macParse_example :
    (stateOf (exec (.macParse 17) (withText macText))).map (·.mac) = some macBytes := by decide
/-- V-MAC-3: `"2g:44:66:88:aa:cc"` with `n` 17. -/
theorem test_macParse_bad_digit :
    (stateOf (exec (.macParse 17) (withText (macText.set 1 0x67)))).map (fun s => (s.mac, s.esr, s.rsps)) =
      some (⟨0, 0, 0, 0, 0, 0⟩, 2, [⟨2, 0⟩]) := by decide
/-- V-MAC-21 over `mac = [DE AD BE EF 00 0F]`: lower case, leading zeros kept, byte 17 untouched. -/
theorem test_macFmt_text :
    bytesAfter 18 (exec .macFmt { State.reset with mac := ⟨0xDE, 0xAD, 0xBE, 0xEF, 0x00, 0x0F⟩, tb := [(17, 0x7A)] }) =
      some [0x64, 0x65, 0x3A, 0x61, 0x64, 0x3A, 0x62, 0x65, 0x3A, 0x65, 0x66, 0x3A, 0x30, 0x30, 0x3A, 0x30, 0x66,
        0x7A] := by decide
/-- V-MAC-19: the response value is the length of the text. -/
theorem test_macFmt_answers_17 :
    lastResponse (exec .macFmt { State.reset with mac := macBytes }) = some ⟨0, 0x11⟩ := by decide
/-- V-MAC-22. -/
theorem test_macSetb_one_byte :
    (stateOf (exec (.macSetb 4 0xAA) State.reset)).map (·.mac) = some ⟨0, 0, 0, 0, 0xAA, 0⟩ := by decide
/-- V-MAC-24: the word with index 6. -/
theorem test_macSetb_index_6 :
    (stateOf (perform 0x32000006AA { State.reset with mac := ⟨1, 2, 3, 4, 5, 6⟩ })).map (fun s => (s.mac, s.esr)) =
      some (⟨1, 2, 3, 4, 5, 6⟩, 8) := by decide
/-- V-MAC-26. -/
theorem test_macGetb_first :
    lastResponse (exec (.macGetb 0) { State.reset with mac := macBytes }) = some ⟨0, 0x22⟩ := by decide
/-- V-MAC-28. -/
theorem test_macGetw_first :
    lastResponse (exec (.macGetw 0) { State.reset with mac := macBytes }) = some ⟨0, 0xCC⟩ := by decide
/-- V-MAC-29. -/
theorem test_macGetw_third :
    lastResponse (exec (.macGetw 2) { State.reset with mac := macBytes }) = some ⟨0, 0x88⟩ := by decide

/-! ## The access-address family (V-AA) -/

/-- V-AA-1. -/
theorem test_aaParse_example : lastResponse (exec (.aaParse 8) (withText aaText)) = some ⟨0, 0x8E89BED6⟩ := by
  decide
/-- V-AA-9: `"0x8e89be"` with `n` 8. -/
theorem test_aaParse_prefix :
    lastResponse (exec (.aaParse 8) (withText [0x30, 0x78, 0x38, 0x65, 0x38, 0x39, 0x62, 0x65])) = some ⟨2, 0⟩ := by
  decide
/-- V-AA-22. -/
theorem test_aaFmt_leading_zeros :
    bytesAfter 8 (exec (.aaFmt 0x0000BEEF) State.reset) =
      some [0x30, 0x30, 0x30, 0x30, 0x62, 0x65, 0x65, 0x66] := by decide
/-- P5, command 11: what is left of the MAC text stays. -/
theorem test_aaFmt_leaves_the_rest :
    bytesAfter 9 (exec (.aaFmt 0x8E89BED6) { State.reset with tb := [(8, 0x3A)] }) =
      some [0x38, 0x65, 0x38, 0x39, 0x62, 0x65, 0x64, 0x36, 0x3A] := by decide

/-! ## The channel family (V-CH) -/

/-- V-CH-2. -/
theorem test_chResolve_38 : lastResponse (exec (.chResolve 38) State.reset) = some ⟨0, 0x97A⟩ := by decide
/-- V-CH-7: all 32 bits are compared. -/
theorem test_chResolve_low_byte_37 :
    (stateOf (exec (.chResolve 0x125) State.reset)).map (fun s => (s.esr, s.rsps)) = some (4, [⟨3, 0⟩]) := by decide

/-! ## Steps and reset -/

/-- The first word of P4 runs as the first step after reset. -/
theorem test_step_first_word :
    lastResponse (step (State.reset.withFetchWord 40 0x5000000025)) = some ⟨0, 0x962⟩ := by decide
/-- V-RST-1: `rst` before the first command. -/
theorem test_step_rst :
    (stateOf (step { State.reset with crc := 0x04E5D3, mac := macBytes, tb := [(0, 0x32)], esr := 15, rstAt := [0] })) =
      some State.reset := by decide

/-! ## The assembler (R53, R54) -/

/-- `TB.WR 2, 0x3A ; a colon` is the word of R69's example. -/
theorem test_assemble_line :
    assembleWords [' ', 'T', 'B', '.', 'W', 'R', ' ', ' ', '2', ',', ' ', '0', 'x', '3', 'A', ' ', ';', ' ', 'a'] =
      some [0x200000023A] := by decide
/-- `TB.STR 30, "2:"` writes two bytes, and one byte more is an error. -/
theorem test_assemble_tbStr :
    assembleWords (['T', 'B', '.', 'S', 'T', 'R', ' ', '3', '0', ','] ++ [quoteChar, '2', ':', quoteChar]) =
        some [0x2000001E32, 0x2000001F3A] ∧
      assembleWords (['T', 'B', '.', 'S', 'T', 'R', ' ', '3', '1', ','] ++ [quoteChar, '2', ':', quoteChar]) = none := by
  decide
/-- `CRC.ADV` is the word of R54. -/
theorem test_assemble_crcAdv : assembleWords ['C', 'R', 'C', '.', 'A', 'D', 'V'] = some [0x1000AAAAAA] := by decide

/-! ## Witnesses: each statement's hypotheses are met together -/

theorem witness_DecodeGivesBackTheEncodedCommand : (Instr.macGetw 5).wf = true := by decide
theorem witness_EncodeGivesBackTheDecodedWord : decodeTableWord 40 0x32000005FF = some (.macSetb 5 0xFF) := by decide
theorem witness_OpcodeMapAgreesWithDecoder :
    ∃ r ∈ opcodeTable, r.selects 0x3300000005 = true ∧ decode 0x3300000005 = .ok (.macGetb 5) :=
  ⟨⟨0x33, 0x3300000000, 0xFFFFFFFFF8, some 0⟩, by decide, by decide, rfl⟩
theorem witness_DecoderRefuses_opcode :
    (0x5100000000#40).extractLsb' 32 8 ∉ ([0x00, 0x01, 0x02, 0x10, 0x11, 0x12, 0x20, 0x21, 0x30, 0x31, 0x32, 0x33,
      0x34, 0x40, 0x41, 0x50] : List Byte) := by decide
theorem witness_DecoderRefuses_reserved_bit :
    (0x2000002000#40).extractLsb' 32 8 = 0x20#8 ∧ (0x2000002000#40).extractLsb' 0 32 &&& 0xFFFFE000#32 ≠ 0 := by decide
theorem witness_DecoderRefuses_index_high :
    (0x3200000600#40).extractLsb' 32 8 = 0x32#8 ∧ 6 ≤ ((0x3200000600#40).extractLsb' 8 3).toNat := by decide
theorem witness_DecoderRefuses_index_low :
    (0x3400000006#40).extractLsb' 32 8 = 0x34#8 ∧ 6 ≤ ((0x3400000006#40).extractLsb' 0 3).toNat := by decide
theorem witness_DecoderRefuses_legal :
    (0x32000005FF#40).extractLsb' 32 8 = 0x32#8 ∧ (0x32000005FF#40).extractLsb' 0 32 &&& 0xFFFFF800#32 = 0 ∧
      ((0x32000005FF#40).extractLsb' 8 3).toNat ≤ 5 := by decide
theorem witness_DecoderRefuses_legal_low :
    (0x3300000005#40).extractLsb' 32 8 = 0x33#8 ∧ (0x3300000005#40).extractLsb' 0 32 &&& 0xFFFFFFF8#32 = 0 ∧
      ((0x3300000005#40).extractLsb' 0 3).toNat ≤ 5 := by decide
theorem witness_IllegalWordIsRejected : decode 0x9900000000 = .error (.undefinedOpcode 0x99) := rfl
theorem witness_AssemblerGivesBackTheCommand :
    (Instr.macSetb 5 255).wf = true ∧ (16 : Nat) ≤ 16 ∧ (256 : Nat) ≤ 256 ∧ (32 : Nat) ≤ 32 ∧ (6 : Nat) ≤ 6 ∧
      2 ^ 32 ≤ 4294967296 := by decide
theorem witness_Assembler_second_operand : ¬ 32 ≤ 31 ∧ 256 ≤ 256 ∧ ¬ 6 ≤ 5 := by decide
theorem witness_PseudoInstructions_too_long : 32 < 31 + ([0x32, 0x3A] : List Byte).length := by decide
theorem witness_PseudoInstructions_fits :
    31 + ([0x3A] : List Byte).length ≤ 32 ∧ ([0x3A] : List Byte)[0]? = some 0x3A := by decide
theorem witness_StepRuns_legal :
    let s := { State.reset with prog := [0x0000000000], rstAt := [1] }
    s.noRstDue ∧ s.prog[s.pc]? = some 0x0000000000 ∧ decodeTableWord 40 0x0000000000 = some .nop := by decide
theorem witness_StepRuns_illegal :
    let s := { State.reset with prog := [0, 0x0000000001], pc := 1 }
    s.noRstDue ∧ s.prog[s.pc]? = some 0x0000000001 ∧ refuses 0x0000000001 = true := by decide
theorem witness_StepTakesRst :
    let s := { State.reset with pc := 2, rstAt := [2, 2] }
    s.rstAt = 2 :: [2] ∧ 2 ≤ s.pc := by decide
theorem witness_StepHolds :
    let s := { State.reset with pc := 1, prog := [0], rstAt := [2] }
    s.noRstDue ∧ s.prog.length ≤ s.pc := by decide
theorem witness_StepKeepsInv :
    let s := { State.reset with tb := [(0, 1), (31, 2)], prog := [0, 0], pc := 1, rsps := [⟨4, 0⟩] }
    s.Inv ∧ (stateOf (step s)).isSome = true := by decide
theorem witness_StepKeepsFlagsAccounted :
    let s := { State.reset with esr := 8, prog := [0, 0], pc := 1, rsps := [⟨4, 0⟩] }
    s.flagsAccounted ∧ (stateOf (step s)).isSome = true := by decide
theorem witness_RunPerformsTheProgram :
    let s := { State.reset with prog := [0x1000AAAAAA, 0x1100000040], pc := 1 }
    s.rstAt = [] ∧ s.pc ≤ s.prog.length := by decide
theorem witness_IllegalCommand_format_W :
    (0x50FFFFFFFF#40).extractLsb' 32 8 ∈ ([0x10, 0x30, 0x40, 0x41, 0x50] : List Byte) := by decide
theorem witness_EsrDisturbsNoOtherCommand :
    Instr.crcGet ≠ .esrGet ∧ ∀ m : EsrReg, Instr.crcGet ≠ .esrClr m := by decide
theorem witness_CommandsAreDetermined :
    SameBlock { State.reset with crc := 1 } { State.reset with crc := 1, pc := 3, prog := [0] } := by decide
theorem witness_ReservedIndexIsRejected : 6 ≤ (6 : IndexField).toNat ∧ 6 ≤ (7 : IndexField).toNat := by decide
theorem witness_CrcByte_illegal :
    (0x1100000100#40).extractLsb' 32 8 = 0x11#8 ∧ (0x1100000100#40).extractLsb' 8 24 ≠ 0#24 := by decide
theorem witness_CrcGet_illegal :
    (0x1200000001#40).extractLsb' 32 8 = 0x12#8 ∧ (0x1200000001#40).extractLsb' 0 32 ≠ 0#32 := by decide
theorem witness_OtherWordsDoNotDisturbTheCrc :
    ∀ cw ∈ ([0x1100000040, 0x5000000028, 0x9900000000] : List CmdWord), ∀ w, decode cw ≠ .ok (.crcSeed w) := by
  intro cw h w hd
  simp only [List.mem_cons, List.not_mem_nil, or_false] at h
  rcases h with rfl | rfl | rfl <;> cases hd
theorem witness_CrcIsLinear : ([1, 2, 3] : List Byte).length = ([7, 0, 255] : List Byte).length := by decide
theorem witness_CrcStepsNeverMerge : computeCrc 0x1000001 [5] = computeCrc 1 [5] := by decide
theorem witness_TbWr_other_address : (30 : Addr) ≠ 31 := by decide
theorem witness_TbWr_illegal :
    (0x2000002000#40).extractLsb' 32 8 = 0x20#8 ∧ (0x2000002000#40).extractLsb' 13 19 ≠ 0#19 := by decide
theorem witness_TbRd_illegal :
    (0x2100000020#40).extractLsb' 32 8 = 0x21#8 ∧ (0x2100000020#40).extractLsb' 5 27 ≠ 0#27 := by decide
theorem witness_CanonicalBuffersAreEqual : Memory.wf [(0, 1), (31, 255)] = true := by decide
theorem witness_HexDigits : (9 : Nibble).toNat ≤ 9 ∧ 10 ≤ (10 : Nibble).toNat := by decide
theorem witness_MacParse_wrong_length : (16 : Word) ≠ 17 ∧ (0x111 : Word) ≠ 17 := by decide
theorem witness_MacParse_bad_character :
    ∃ p < 17, (p % 3 = 2 ∧ textOf (withText (macText.set 14 0x2D)) p ≠ 0x3A) ∨
      (p % 3 ≠ 2 ∧ isHex (textOf (withText (macText.set 14 0x2D)) p) = false) := by decide
theorem witness_MacParse_last_character_bad :
    ∃ p < 17, (p % 3 = 2 ∧ textOf (withText (macText.set 16 0x67)) p ≠ 0x3A) ∨
      (p % 3 ≠ 2 ∧ isHex (textOf (withText (macText.set 16 0x67)) p) = false) := by decide
theorem witness_MacParse_good :
    ∀ p < 17, (p % 3 = 2 → textOf (withText macText) p = 0x3A) ∧
      (p % 3 ≠ 2 → isHex (textOf (withText macText) p) = true) := by decide
theorem witness_MacFmt_beyond : 17 ≤ (17 : Addr).toNat := by decide
theorem witness_MacFmt_illegal :
    (0x3100000001#40).extractLsb' 32 8 = 0x31#8 ∧ (0x3100000001#40).extractLsb' 0 32 ≠ 0#32 := by decide
theorem witness_MacIndex_legal : (5 : IndexField).toNat ≤ 5 := by decide
theorem witness_MacSetb_illegal_bit :
    (0x32000008AA#40).extractLsb' 32 8 = 0x32#8 ∧ (0x32000008AA#40).extractLsb' 11 21 ≠ 0#21 := by decide
theorem witness_MacSetb_illegal_index :
    (0x32000006AA#40).extractLsb' 32 8 = 0x32#8 ∧ 6 ≤ ((0x32000006AA#40).extractLsb' 8 3).toNat := by decide
theorem witness_MacGetb_illegal_bit :
    (0x3300000008#40).extractLsb' 32 8 = 0x33#8 ∧ (0x3300000008#40).extractLsb' 3 29 ≠ 0#29 := by decide
theorem witness_MacGetb_illegal_index :
    (0x3300000006#40).extractLsb' 32 8 = 0x33#8 ∧ 6 ≤ ((0x3300000006#40).extractLsb' 0 3).toNat := by decide
theorem witness_MacGetw_illegal_bit :
    (0x3400000008#40).extractLsb' 32 8 = 0x34#8 ∧ (0x3400000008#40).extractLsb' 3 29 ≠ 0#29 := by decide
theorem witness_MacGetw_illegal_index :
    (0x3400000007#40).extractLsb' 32 8 = 0x34#8 ∧ 6 ≤ ((0x3400000007#40).extractLsb' 0 3).toNat := by decide
theorem witness_MacFormatOfDecodeIsLowerCase :
    macValidate 17 (fun p => (macText.set 12 0x41).getD p 0) = none := by decide
theorem witness_ParseIgnores_mac :
    ∀ a : Addr, a.toNat < 17 → Memory.read [(17, 1)] a = State.reset.tb.read a := by decide
theorem witness_ParseIgnores_aa :
    ∀ a : Addr, a.toNat < 8 → Memory.read [(8, 1)] a = State.reset.tb.read a := by decide
theorem witness_AaParse_wrong_length : (9 : Word) ≠ 8 ∧ (0x108 : Word) ≠ 8 := by decide
theorem witness_AaParse_bad_character : ∃ p < 8, isHex (textOf (withText (aaText.set 7 0x3A)) p) = false := by decide
theorem witness_AaParse_good : ∀ p < 8, isHex (textOf (withText aaText) p) = true := by decide
theorem witness_AaFmt_beyond : 8 ≤ (8 : Addr).toNat := by decide
theorem witness_AaFormatOfDecodeIsLowerCase :
    aaValidate 8 (fun p => (aaText.set 1 0x45).getD p 0) = none := by decide
theorem witness_Nop_illegal :
    (0x0000000001#40).extractLsb' 32 8 = 0x00#8 ∧ (0x0000000001#40).extractLsb' 0 32 ≠ 0#32 := by decide
theorem witness_EsrGet_illegal :
    (0x0100000001#40).extractLsb' 32 8 = 0x01#8 ∧ (0x0100000001#40).extractLsb' 0 32 ≠ 0#32 := by decide
theorem witness_EsrClr_illegal :
    (0x0200000010#40).extractLsb' 32 8 = 0x02#8 ∧ (0x0200000010#40).extractLsb' 4 28 ≠ 0#28 := by decide

end Sys2Proof.Tests
end

/-! The statements of spec/00_scope.md: a command's effect depends on the word and the block alone (R14), and the
hex digits with their values (R8, R9). -/

namespace Sys2Proof.Machine

/-! ## Commands are determined (R14) -/

/-- The block's four registers of one state with the host's side of another (R15, R22, R23). -/
def State.withHost (s h : State) : State :=
  { s with pc := h.pc, prog := h.prog, rsps := h.rsps, rstAt := h.rstAt }

@[simp] theorem State.withHost_rsps (s h : State) : (s.withHost h).rsps = h.rsps := rfl

@[simp] theorem textOf_withHost (s h : State) : textOf (s.withHost h) = textOf s := rfl

theorem sameBlock_withHost (s h : State) : SameBlock s (s.withHost h) := ⟨rfl, rfl, rfl, rfl⟩

theorem withHost_eq_of_sameBlock {s s' : State} (hb : SameBlock s s') : s.withHost s' = s' := by
  obtain ⟨hcrc, hmac, htb, hesr⟩ := hb
  simp [State.withHost, hcrc, hmac, htb, hesr]

/-- A command ends with the same response, on the same block, when the host's side is that of `h` instead: `u` is the
state with the command's writes applied. -/
def EndsAlike (f : State → Host.Outcome State Fault Refusal) (s h : State) : Prop :=
  ∃ st val u, u.rsps = s.rsps ∧ f s = respond st val u ∧ f (s.withHost h) = respond st val (u.withHost h)

theorem raise_endsAlike (e : Err) (s h : State) : EndsAlike (raise e) s h :=
  ⟨e.code, 0, s.setEsr (setFlag e s.esr), rfl, rfl, rfl⟩

/-- No command looks at the host's side: one case per command, and one per answer of its check. -/
theorem exec_endsAlike (i : Instr) (s h : State) : EndsAlike (exec i) s h := by
  cases i with
  | nop => exact ⟨_, 0, s, rfl, rfl, rfl⟩
  | esrGet => exact ⟨_, zext32 s.esr, s, rfl, rfl, rfl⟩
  | esrClr m => exact ⟨_, zext32 s.esr, s.setEsr (clearFlags m s.esr), rfl, rfl, rfl⟩
  | crcSeed w => exact ⟨_, 0, s.setCrc (seedField w), rfl, rfl, rfl⟩
  | crcByte b => exact ⟨_, 0, s.setCrc (crcByte s.crc b), rfl, rfl, rfl⟩
  | crcGet => exact ⟨_, zext32 s.crc, s, rfl, rfl, rfl⟩
  | tbWr a b => exact ⟨_, 0, s.setTb (s.tb.write a b), rfl, rfl, rfl⟩
  | tbRd a => exact ⟨_, zext32 (s.tb.read a), s, rfl, rfl, rfl⟩
  | macParse w =>
    simp only [EndsAlike, exec, execMacParse, textOf_withHost]
    cases macValidate w (textOf s) with
    | some e => exact raise_endsAlike e s h
    | none => exact ⟨_, 0, s.setMac (macDecode (textOf s)), rfl, rfl, rfl⟩
  | macFmt => exact ⟨_, _, s.setTb (s.tb.writeText (macFormat s.mac) macTextLen), rfl, rfl, rfl⟩
  | macSetb k b =>
    simp only [EndsAlike, exec, execMacSetb]
    cases macIndex k with
    | some j => exact ⟨_, 0, s.setMac (s.mac.set j b), rfl, rfl, rfl⟩
    | none => exact raise_endsAlike .illegalCommand s h
  | macGetb k =>
    simp only [EndsAlike, exec, execMacGetb]
    cases macIndex k with
    | some j => exact ⟨_, zext32 (s.mac.get j), s, rfl, rfl, rfl⟩
    | none => exact raise_endsAlike .illegalCommand s h
  | macGetw k =>
    simp only [EndsAlike, exec, execMacGetw]
    cases macIndex k with
    | some j => exact ⟨_, zext32 (s.mac.get (wireIndex j)), s, rfl, rfl, rfl⟩
    | none => exact raise_endsAlike .illegalCommand s h
  | aaParse w =>
    simp only [EndsAlike, exec, execAaParse, textOf_withHost]
    cases aaValidate w (textOf s) with
    | some e => exact raise_endsAlike e s h
    | none => exact ⟨_, aaDecode (textOf s), s, rfl, rfl, rfl⟩
  | aaFmt w => exact ⟨_, _, s.setTb (s.tb.writeText (aaFormat w) aaTextLen), rfl, rfl, rfl⟩
  | chResolve w =>
    simp only [EndsAlike, exec, execChResolve]
    cases resolveChannel w with
    | some freq => exact ⟨_, freq, s, rfl, rfl, rfl⟩
    | none => exact raise_endsAlike .invalidChannel s h

theorem perform_endsAlike (cw : CmdWord) (s h : State) : EndsAlike (perform cw) s h := by
  unfold perform
  cases decode cw with
  | ok i => exact exec_endsAlike i s h
  | error _ => exact raise_endsAlike .illegalCommand s h

/-- Settles O26: two states with one block differ in the host's side only, which no performed word looks at. -/
theorem commandsAreDetermined : Obligations.CommandsAreDetermined := by
  intro cw s s' hb
  obtain ⟨st, val, u, hu, hs, hs'⟩ := perform_endsAlike cw s s'
  rw [withHost_eq_of_sameBlock hb] at hs'
  exact ⟨u.answer st val, (u.withHost s').answer st val, ⟨st, val⟩, hs, hs', sameBlock_withHost u s', by simp [hu],
    by simp⟩

/-! ## Hex digits (R8, R9) -/

/-- The hex digits are the bytes of three ranges (R8). -/
theorem isHex_iff (c : Byte) : isHex c = true ↔
    (0x30 ≤ c.toNat ∧ c.toNat ≤ 0x39) ∨ (0x41 ≤ c.toNat ∧ c.toNat ≤ 0x46) ∨ (0x61 ≤ c.toNat ∧ c.toNat ≤ 0x66) := by
  simp [isHex, or_assoc]

theorem hexchar_of_le {v : Nibble} (h : v.toNat ≤ 9) : hexchar v = BitVec.ofNat 8 (0x30 + v.toNat) := if_pos h

theorem hexchar_of_ge {v : Nibble} (h : 10 ≤ v.toNat) : hexchar v = BitVec.ofNat 8 (0x61 + (v.toNat - 10)) :=
  if_neg (by omega)

/-- An upper-case digit has its value (R8); the lower-case ones are `hexval_hexchar`. -/
theorem hexval_upper {v : Nibble} (h : 10 ≤ v.toNat) : hexval (BitVec.ofNat 8 (0x41 + (v.toNat - 10))) = v := by
  have hv := v.isLt
  have hc : (BitVec.ofNat 8 (0x41 + (v.toNat - 10))).toNat = 0x41 + (v.toNat - 10) :=
    Nat.mod_eq_of_lt (by omega)
  unfold hexval
  rw [hc, if_neg (by omega), if_pos (by omega)]
  exact BitVec.eq_of_toNat_eq (by rw [BitVec.toNat_ofNat]; omega)

/-- Settles O42: the three ranges list the digits, and `hexval_hexchar` gives the values of those `hexchar` writes. -/
theorem hexDigits : Obligations.HexDigits := by
  refine ⟨fun c => ?_, fun v h => ?_, fun v h => ?_⟩
  · rw [isHex_iff]
    simp [← BitVec.toNat_inj]
    omega
  · have hd := hexchar_of_le h
    exact ⟨hd ▸ hexval_hexchar v, hd⟩
  · have hd := hexchar_of_ge h
    exact ⟨hexval_upper h, hd ▸ hexval_hexchar v, hd⟩

end Sys2Proof.Machine

/-! The statement of spec/10_state.md: the block's four registers after reset (R24). -/

namespace Sys2Proof.Machine

/-! ## The reset state (R24) -/

/-- A `mac` of six zero bytes has a zero byte at every index (R17). -/
@[simp] theorem Mac.get_zero (k : Fin 6) : Mac.get ⟨0, 0, 0, 0, 0, 0⟩ k = 0 := by
  fin_cases k <;> rfl

/-- Settles O12: at reset each byte of `mac` is a stored zero, and `TB` lists no cell, so every address reads 0. -/
theorem resetStateIsZero : Obligations.ResetStateIsZero := by
  refine ⟨State.reset_crc, fun k => ?_, fun a => ?_, State.reset_esr⟩
  · rw [State.reset_mac, Mac.get_zero]
  · rw [State.reset_tb, Memory.read_nil]

end Sys2Proof.Machine

/-! The statements of spec/30_encoding.md: which words the decoder refuses (R47 to R49), what performing a refused word
does (R52), and the three pseudo-instructions (R54). -/

namespace Sys2Proof.Machine

/-! ## The words the decoder refuses (R47 to R49) -/

/-- The format of an opcode, where it is one of the 16 (R44). -/
def formatOf (op : Byte) : Option Format := (opcodeEntry op).map Prod.fst

/-- The 16 opcodes, each with the bits of `arg` its format reserves (R42, R44). -/
def reservedRows : List (Byte × Word) :=
  [(0x00, 0xFFFFFFFF), (0x01, 0xFFFFFFFF), (0x02, 0xFFFFFFF0), (0x10, 0), (0x11, 0xFFFFFF00), (0x12, 0xFFFFFFFF),
   (0x20, 0xFFFFE000), (0x21, 0xFFFFFFE0), (0x30, 0), (0x31, 0xFFFFFFFF), (0x32, 0xFFFFF800), (0x33, 0xFFFFFFF8),
   (0x34, 0xFFFFFFF8), (0x40, 0), (0x41, 0), (0x50, 0)]

/-- Each row's mask is that of its opcode's format; 0x32 alone has format IB, and 0x33 and 0x34 alone have format I. -/
theorem formatOf_reservedRows : ∀ p ∈ reservedRows, ∃ fmt ∈ formatOf p.1,
    fmt.reserved = p.2 ∧ (fmt = .IB ↔ p.1 = 0x32) ∧ (fmt = .I ↔ p.1 ∈ ([0x33, 0x34] : List Byte)) := by
  intro p hp
  fin_cases hp <;> exact ⟨_, rfl, by decide⟩

theorem opcode_mem (i : Instr) : opcode i ∈ reservedRows.map Prod.fst := by
  cases i <;> simp [opcode, reservedRows]

theorem opcode_of_decode_ok {cw : CmdWord} {i : Instr} (h : decode cw = .ok i) : opcode i = opField cw := by
  obtain ⟨fmt, build, he, -, -, rfl⟩ := (decode_ok_iff cw i).mp h
  exact opcode_of_entry he _

/-- A low field of `arg` is that field of the word. -/
theorem extractLsb'_argField {lo n : Nat} (cw : CmdWord) (h : lo + n ≤ 32) :
    (argField cw).extractLsb' lo n = cw.extractLsb' lo n := by
  ext j hj
  have hlt : lo + j < 32 := by omega
  simp [argField, BitVec.getElem_extractLsb', hlt]

/-- The byte index is legal where a format has one: bits 10:8 of IB and 2:0 of I are at most 5 (R48). -/
theorem indexOf_legal_iff (fmt : Format) (cw : CmdWord) :
    (∀ k, fmt.indexOf (argField cw) = some k → IndexField.legal k = true) ↔
      (fmt = .IB → (cw.extractLsb' 8 3).toNat ≤ 5) ∧ (fmt = .I → (cw.extractLsb' 0 3).toNat ≤ 5) := by
  cases fmt <;> simp [Format.indexOf, IndexField.legal, extractLsb'_argField]

/-- A word of a defined opcode is a command exactly when its reserved bits are 0 and its byte index is legal. -/
theorem decodes_iff_of_format {cw : CmdWord} {fmt : Format} (hf : fmt ∈ formatOf (opField cw)) :
    (∃ i, decode cw = .ok i) ↔ argField cw &&& fmt.reserved = 0 ∧
      (fmt = .IB → (cw.extractLsb' 8 3).toNat ≤ 5) ∧ (fmt = .I → (cw.extractLsb' 0 3).toNat ≤ 5) := by
  obtain ⟨⟨_, build⟩, he, rfl⟩ := Option.map_eq_some_iff.mp hf
  simp [decode_ok_iff, he, indexOf_legal_iff]

/-- Settles O5: a command's opcode is one of the 16, and for each of these its format says which words decode. -/
theorem decoderRefusesExactlyTheIllegalWords : Obligations.DecoderRefusesExactlyTheIllegalWords := by
  constructor
  · intro cw hop
    rw [decode_error_iff]
    rintro ⟨i, hi⟩
    have hcw : opcode i = cw.extractLsb' 32 8 := opcode_of_decode_ok hi
    exact hop (hcw ▸ opcode_mem i)
  · intro p hp cw hop
    obtain ⟨fmt, hf, hmask, hIB, hI⟩ := formatOf_reservedRows p hp
    have hdec := decodes_iff_of_format (cw := cw) (hop ▸ hf)
    rw [hmask, hIB, hI] at hdec
    rw [decode_error_iff, hdec]
    refine ⟨?_, ?_, ?_, fun hbits hhigh hlow => ⟨hbits, hhigh, hlow⟩⟩
    · rintro hbits ⟨hzero, -, -⟩
      exact hbits hzero
    · rintro hop32 h6 ⟨-, hhigh, -⟩
      exact absurd (hhigh hop32) (by omega)
    · rintro hop34 h6 ⟨-, -, hlow⟩
      exact absurd (hlow hop34) (by omega)

/-! ## Performing a refused word (R52) -/

theorem perform_of_refused {cw : CmdWord} (h : ∃ e, decode cw = .error e) (s : State) :
    perform cw s = .next (s.rejectedWith 4) := by
  obtain ⟨e, he⟩ := h
  simp only [perform, he]
  exact raise_next .illegalCommand s

/-- Settles O6: a refused word is performed as `raise IllegalCommand`. -/
theorem illegalWordIsRejected : Obligations.IllegalWordIsRejected :=
  fun _ s h => perform_of_refused h s

/-! ## Pseudo-instructions (R54) -/

theorem length_tbWritesFrom (a : Nat) (text : List Byte) : (tbWritesFrom a text).length = text.length := by
  induction text generalizing a with
  | nil => rfl
  | cons c text ih => simp [tbWritesFrom, ih]

/-- Character `k` goes to address `a + k`. -/
theorem getElem?_tbWritesFrom (a : Nat) (text : List Byte) (k : Nat) :
    (tbWritesFrom a text)[k]? = text[k]?.map (.tbWr (BitVec.ofNat 5 (a + k))) := by
  induction text generalizing a k with
  | nil => rfl
  | cons c text ih =>
    cases k with
    | zero => rfl
    | succ k => simp [tbWritesFrom, ih, Nat.add_assoc, Nat.add_comm 1 k]

/-- Settles O8: the two fixed words by evaluation, and `TB.STR` by its bound and the two lemmas on its writes. -/
theorem pseudoInstructionsExpand : Obligations.PseudoInstructionsExpand := by
  refine ⟨by decide, by decide, fun a text h => ?_, fun a text h => ?_⟩
  · exact if_neg (Nat.not_le.mpr h)
  · refine ⟨tbWritesFrom a text, if_pos h, length_tbWritesFrom a text, fun k c hc => ?_⟩
    rw [getElem?_tbWritesFrom, hc, Option.map_some]

end Sys2Proof.Machine

/-! The statements of spec/40_crc.md: the bit step, the byte step and the whole function (R58 to R61), and `CRC.SEED`,
`CRC.BYTE` and `CRC.GET` (R63 to R65). -/

namespace Sys2Proof.Machine

/-! ## The function (R58 to R61) -/

/-- Settles O29: the two clauses are the definitions, the byte step's fold taken eight times. -/
theorem crcStepsAsThePseudocode : Obligations.CrcStepsAsThePseudocode :=
  ⟨fun _ _ => rfl, fun _ _ => rfl⟩

theorem toNat_computeCrc_nil (seed : Nat) : (computeCrc seed []).toNat = seed &&& 0xFFFFFF := by
  rw [computeCrc, List.foldl_nil, BitVec.toNat_ofNat]
  exact (Nat.and_two_pow_sub_one_eq_mod seed 24).symm

/-- Masking a seed leaves the register it is loaded into as it was. -/
theorem ofNat_seed_mask (seed : Nat) : BitVec.ofNat 24 (seed &&& 0xFFFFFF) = BitVec.ofNat 24 seed := by
  rw [← toNat_computeCrc_nil, BitVec.ofNat_toNat, BitVec.setWidth_eq]
  rfl

theorem computeCrc_append (seed : Nat) (data data' : List Byte) :
    computeCrc seed (data ++ data') = data'.foldl crcByte (computeCrc seed data) :=
  List.foldl_append

/-- Settles O30: the mask is the reduction to 24 bits, and the fold takes an appended byte last. -/
theorem computeCrcTakesBytesInOrder : Obligations.ComputeCrcTakesBytesInOrder := by
  refine ⟨toNat_computeCrc_nil, fun seed data => ?_, fun seed data b => computeCrc_append seed data [b]⟩
  rw [computeCrc, computeCrc, ofNat_seed_mask]

/-! ## Words of one opcode: reserved bits 0, or one of them 1 (R45, R47) -/

/-- A word put together from an opcode and an `arg` decodes by the opcode's row, where the format has no byte index. -/
theorem decode_append {op : Byte} {arg : Word} {fmt : Format} {build : Word → Instr} {i : Instr}
    (he : opcodeEntry op = some (fmt, build)) (hr : arg &&& fmt.reserved = 0) (hx : fmt.indexOf arg = none)
    (hi : build arg = i) : decode (op ++ arg) = .ok i := by
  simp [decode_ok_iff, he, hr, hx, hi]

/-- A word with a 1 in the bits its format reserves is performed as an illegal command (R47, R52). -/
theorem perform_of_reservedBits {cw : CmdWord} {op : Byte} {fmt : Format} (hop : cw.extractLsb' 32 8 = op)
    (hf : fmt ∈ formatOf op) (hr : argField cw &&& fmt.reserved ≠ 0) (s : State) :
    perform cw s = .next (s.rejectedWith 4) := by
  refine perform_of_refused ?_ s
  rw [decode_error_iff, decodes_iff_of_format (hop ▸ hf)]
  rintro ⟨hzero, -⟩
  exact hr hzero

/-- What a mask of the high bits clears has no 1 among them. -/
theorem extractLsb'_eq_zero_of_and_highMask {v w : Nat} {x : BitVec (v + w)}
    (h : x &&& (BitVec.allOnes v ++ 0#w) = 0) : x.extractLsb' w v = 0 := by
  ext j hj
  have hbit := congrArg (BitVec.getLsbD · (w + j)) h
  simpa [BitVec.getLsbD_append, hj] using hbit

/-- Format B reserves `arg[31:8]` (R42). -/
theorem and_reservedB_ne_zero {cw : CmdWord} (h : cw.extractLsb' 8 24 ≠ 0) :
    argField cw &&& Format.B.reserved ≠ 0 := by
  rw [← extractLsb'_argField cw (by decide)] at h
  exact fun h0 => h (extractLsb'_eq_zero_of_and_highMask (v := 24) (w := 8) h0)

/-- Format Z reserves all of `arg` (R42). -/
theorem and_reservedZ (arg : Word) : arg &&& Format.Z.reserved = arg := BitVec.and_allOnes

/-! ## The commands (R63 to R65) -/

/-- A command that succeeds, in the words of the claims. -/
theorem respond_statusOk (val : Word) (s : State) : respond statusOk val s = .next (s.answeredWith val) := rfl

theorem zext32_crc (v : CrcReg) : zext32 v = 0#8 ++ v := BitVec.setWidth_eq_append (by decide)

/-- Settles O31: format W reserves no bit, so every word of the opcode is `CRC.SEED`. -/
theorem crcSeedLoadsTheRegister : Obligations.CrcSeedLoadsTheRegister :=
  fun w s => ⟨decode_append (fmt := .W) rfl BitVec.and_zero rfl rfl, respond_statusOk 0 (s.setCrc (seedField w))⟩

/-- Settles O32: the encoded byte leaves the reserved bits 0, and a word with one of them set is refused. -/
theorem crcByteFoldsOneByte : Obligations.CrcByteFoldsOneByte := by
  refine fun b s => ⟨?_, respond_statusOk 0 (s.setCrc (crcByte s.crc b)), fun cw hop hr => ?_⟩
  · obtain ⟨_, he, hz⟩ := Laws.ReservedZero.crcByte b
    cases he
    exact decode_append rfl hz rfl (congrArg Instr.crcByte (fieldB_encode_crcByte b))
  · exact perform_of_reservedBits (fmt := .B) hop rfl (and_reservedB_ne_zero hr) s

/-- Settles O33: the register zero-extended is eight zeros above it, and every bit of `arg` is reserved. -/
theorem crcGetAnswersTheRegister : Obligations.CrcGetAnswersTheRegister := by
  refine fun s => ⟨decode_append (op := 0x12) (arg := 0) rfl rfl rfl rfl, ?_, fun cw hop harg => ?_⟩
  · rw [← zext32_crc]
    exact respond_statusOk (zext32 s.crc) s
  · exact perform_of_reservedBits (fmt := .Z) hop rfl ((and_reservedZ _).symm ▸ harg) s

end Sys2Proof.Machine

/-! The statements of spec/41_text_buffer.md: `TB.WR` and `TB.RD` (R69, R70). -/

namespace Sys2Proof.Machine

/-- A word with a 1 in a field of `arg` that its format reserves throughout is performed as an illegal command (R47,
R52). -/
theorem perform_of_reservedField {cw : CmdWord} {op : Byte} {fmt : Format} {lo n : Nat}
    (hop : cw.extractLsb' 32 8 = op) (hf : fmt ∈ formatOf op) (hn : lo + n ≤ 32)
    (hmask : ∀ j < n, fmt.reserved.getLsbD (lo + j) = true) (hr : cw.extractLsb' lo n ≠ 0) (s : State) :
    perform cw s = .next (s.rejectedWith 4) := by
  refine perform_of_reservedBits hop hf (fun hzero => hr ?_) s
  rw [← extractLsb'_argField cw hn]
  ext j hj
  have hbit := congrArg (BitVec.getLsbD · (lo + j)) hzero
  simpa [hmask j hj] using hbit

theorem zext32_byte (b : Byte) : zext32 b = 0#24 ++ b := BitVec.setWidth_eq_append (by decide)

/-- Settles O39: the encoded operands leave the reserved bits 0, the buffer after the command is `TB` with one write,
and a word with one of `arg[31:13]` set is refused. -/
theorem tbWrStoresOneByte : Obligations.TbWrStoresOneByte := by
  refine fun a b s => ⟨?_, ⟨s.tb.write a b, ?_, ?_, ?_⟩, fun cw hop hr => ?_⟩
  · obtain ⟨_, he, hz⟩ := Laws.ReservedZero.tbWr a b
    cases he
    exact decode_append rfl hz rfl (congrArg₂ Instr.tbWr (fieldAHigh_encode a b) (fieldB_encode_tbWr a b))
  · exact respond_statusOk 0 (s.setTb (s.tb.write a b))
  · exact Memory.read_write_same s.tb a b
  · exact fun a' ha => Memory.read_write_other s.tb b ha
  · exact perform_of_reservedField (fmt := .AB) hop rfl (by decide) (by decide) hr s

/-- Settles O40: the byte zero-extended is 24 zeros above it, and a word with one of `arg[31:5]` set is refused. -/
theorem tbRdAnswersOneByte : Obligations.TbRdAnswersOneByte := by
  refine fun a s => ⟨?_, ?_, fun cw hop hr => ?_⟩
  · obtain ⟨_, he, hz⟩ := Laws.ReservedZero.tbRd a
    cases he
    exact decode_append rfl hz rfl (congrArg Instr.tbRd (fieldALow_encode a))
  · rw [← zext32_byte]
    exact respond_statusOk (zext32 (s.tb.read a)) s
  · exact perform_of_reservedField (fmt := .A) hop rfl (by decide) (by decide) hr s

end Sys2Proof.Machine

/-! The statements of spec/42_mac.md: `MAC.PARSE` and `MAC.FMT` (R73 to R77), and the commands on one byte of `mac`,
`MAC.SETB`, `MAC.GETB` and `MAC.GETW` (R78 to R80). -/

namespace Sys2Proof.Machine

/-! ## `MAC.PARSE` (R73 to R75) -/

/-- A rejected command, in the words of the claims. -/
theorem raise_eq_rejectedWith (e : Err) (s : State) : raise e s = .next (s.rejectedWith e.code) := rfl

theorem not_macCharBad_iff (t : Nat → Byte) (p : Nat) :
    ¬MacCharBad t p ↔ (p % 3 = 2 → t p = colon) ∧ (p % 3 ≠ 2 → isHex (t p) = true) := by
  unfold MacCharBad
  by_cases h : p % 3 = 2 <;> simp [h]

theorem macValidate_of_ne {w : Word} (hw : w ≠ 17) (t : Nat → Byte) : macValidate w t = some .invalidLength := by
  obtain ⟨-, h⟩ | ⟨h17, -⟩ | ⟨h17, -⟩ := macValidate_cases w t
  · exact h
  · exact absurd h17 hw
  · exact absurd h17 hw

theorem macValidate_of_bad {t : Nat → Byte} (hbad : ∃ p < 17, MacCharBad t p) :
    macValidate 17 t = some .invalidCharacter := by
  obtain ⟨hne, -⟩ | ⟨-, h, -⟩ | ⟨-, -, hgood⟩ := macValidate_cases 17 t
  · exact absurd rfl hne
  · exact h
  · obtain ⟨p, hp, hb⟩ := hbad
    exact absurd hb (hgood p hp)

theorem macValidate_of_good {t : Nat → Byte} (hgood : ∀ p < 17, ¬MacCharBad t p) : macValidate 17 t = none := by
  obtain ⟨hne, -⟩ | ⟨-, -, p, hp, hb⟩ | ⟨-, h, -⟩ := macValidate_cases 17 t
  · exact absurd rfl hne
  · exact absurd hb (hgood p hp)
  · exact h

theorem exec_macParse_of_error {w : Word} {s : State} {e : Err} (h : macValidate w (textOf s) = some e) :
    exec (.macParse w) s = .next (s.rejectedWith e.code) := by
  rw [← raise_eq_rejectedWith]
  simp only [exec, execMacParse, h]

theorem exec_macParse_of_ok {w : Word} {s : State} (h : macValidate w (textOf s) = none) :
    exec (.macParse w) s = .next ((s.setMac (macDecode (textOf s))).answeredWith 0) := by
  rw [← respond_statusOk]
  simp only [exec, execMacParse, h]

/-- Settles O43: each of the three answers of `mac_validate` decides how the command ends. -/
theorem macParseDecodesTheText : Obligations.MacParseDecodesTheText := by
  refine fun w s => ⟨?_, fun hw => ?_, fun hbad => ?_, fun hgood => ?_⟩
  · exact decode_append (fmt := .W) rfl BitVec.and_zero rfl rfl
  · exact exec_macParse_of_error (e := .invalidLength) (macValidate_of_ne hw _)
  · exact exec_macParse_of_error (e := .invalidCharacter) (macValidate_of_bad hbad)
  · have hok := macValidate_of_good fun p hp => (not_macCharBad_iff (textOf s) p).mpr (hgood p hp)
    exact ⟨macDecode (textOf s), exec_macParse_of_ok hok, macDecode_get (textOf s)⟩

/-! ## `MAC.FMT` (R76, R77) -/

theorem macFormat_high (m : Mac) (g : Fin 6) : macFormat m (3 * g.val) = hexchar ((m.get g).extractLsb' 4 4) := by
  fin_cases g <;> rfl

theorem macFormat_low (m : Mac) (g : Fin 6) : macFormat m (3 * g.val + 1) = hexchar ((m.get g).extractLsb' 0 4) := by
  fin_cases g <;> rfl

theorem macFormat_separator (m : Mac) (g : Nat) : macFormat m (3 * g + 2) = colon := by
  have h : (3 * g + 2) % 3 = 2 := by omega
  simp [macFormat, h]

/-- Character `p` of a written text stands at address `p`. -/
theorem Memory.read_writeText_ofNat (m : Memory) (t : Nat → Byte) {n p : Nat} (hn : n ≤ tbSize) (hp : p < n) :
    (m.writeText t n).read (BitVec.ofNat 5 p) = t p := by
  have hmod : (BitVec.ofNat 5 p).toNat = p := Nat.mod_eq_of_lt (hp.trans_le hn)
  rw [Memory.read_writeText m t hn, hmod, if_pos hp]

/-- An address past a written text reads as before. -/
theorem Memory.read_writeText_beyond (m : Memory) (t : Nat → Byte) {n : Nat} {a : Addr} (hn : n ≤ tbSize)
    (ha : n ≤ a.toNat) : (m.writeText t n).read a = m.read a := by
  rw [Memory.read_writeText m t hn, if_neg (Nat.not_lt.mpr ha)]

theorem exec_macFmt (s : State) :
    exec .macFmt s = .next ((s.setTb (s.tb.writeText (macFormat s.mac) macTextLen)).answeredWith 17) :=
  respond_statusOk (BitVec.ofNat 32 macTextLen) _

/-- Settles O44: the buffer after the command is `TB` with the text of `mac` written, which has two digits and a
separator for each group, and every bit of `arg` is reserved. -/
theorem macFmtWritesTheText : Obligations.MacFmtWritesTheText := by
  have hsize : macTextLen ≤ tbSize := by decide
  have hlen : macTextLen = 17 := rfl
  refine fun s => ⟨decode_append (op := 0x31) (arg := 0) rfl rfl rfl rfl, ⟨s.tb.writeText (macFormat s.mac) macTextLen,
    exec_macFmt s, fun g => ⟨?_, ?_⟩, fun g hg => ?_, fun a ha => ?_⟩, fun cw hop harg => ?_⟩
  · rw [Memory.read_writeText_ofNat _ _ hsize (by omega), macFormat_high]
  · rw [Memory.read_writeText_ofNat _ _ hsize (by omega), macFormat_low]
  · rw [Memory.read_writeText_ofNat _ _ hsize (by omega), macFormat_separator]
    rfl
  · exact Memory.read_writeText_beyond _ _ hsize ha
  · exact perform_of_reservedBits (fmt := .Z) hop rfl ((and_reservedZ _).symm ▸ harg) s

/-! ## Words with a byte index: legal, or one of the reserved values 6 and 7 (R45, R48) -/

/-- A word put together from an opcode and an `arg` decodes by the opcode's row, where the byte index is legal. -/
theorem decode_append_of_index {op : Byte} {arg : Word} {fmt : Format} {build : Word → Instr} {i : Instr}
    {k : IndexField} (he : opcodeEntry op = some (fmt, build)) (hr : arg &&& fmt.reserved = 0)
    (hx : fmt.indexOf arg = some k) (hk : k.toNat ≤ 5) (hi : build arg = i) : decode (op ++ arg) = .ok i := by
  simp [decode_ok_iff, he, hr, hx, IndexField.legal, hk, hi]

/-- A word of format I with a legal index and its reserved bits 0 is the command of its opcode (R42, R45). -/
theorem decode_formatI {op : Byte} {build : IndexField → Instr} {i : IndexField}
    (he : opcodeEntry op = some (.I, fun arg => build (fieldILow arg))) (hi : i.toNat ≤ 5) :
    decode (op ++ (0#29 ++ i)) = .ok (build i) := by
  obtain ⟨_, hentry, hz⟩ := Laws.ReservedZero.macGetb i
  cases hentry
  have hlow : fieldILow (0#29 ++ i) = i := extract_low (0#29) i
  exact decode_append_of_index he hz (congrArg some hlow) hi (congrArg build hlow)

/-- A word whose byte index is 6 or 7 is performed as an illegal command (R48, R52). -/
theorem perform_of_reservedIndex {cw : CmdWord} {op : Byte} {fmt : Format} {k : IndexField}
    (hop : cw.extractLsb' 32 8 = op) (hf : fmt ∈ formatOf op) (hx : fmt.indexOf (argField cw) = some k)
    (h6 : 6 ≤ k.toNat) (s : State) : perform cw s = .next (s.rejectedWith 4) := by
  refine perform_of_refused ?_ s
  rw [decode_error_iff, decodes_iff_of_format (hop ▸ hf), ← indexOf_legal_iff]
  rintro ⟨-, hlegal⟩
  have h5 : k.toNat ≤ 5 := of_decide_eq_true (hlegal k hx)
  omega

/-- The two ways a word of format I is illegal (R42, R47, R48). -/
theorem perform_of_illegalI {cw : CmdWord} {op : Byte} (hop : cw.extractLsb' 32 8 = op)
    (hf : Format.I ∈ formatOf op) (h : cw.extractLsb' 3 29 ≠ 0 ∨ 6 ≤ (cw.extractLsb' 0 3).toNat) (s : State) :
    perform cw s = .next (s.rejectedWith 4) := by
  obtain hr | h6 := h
  · exact perform_of_reservedField hop hf (by decide) (by decide) hr s
  · rw [← extractLsb'_argField cw (by decide)] at h6
    exact perform_of_reservedIndex hop hf rfl h6 s

/-! ## `MAC.SETB`, `MAC.GETB` and `MAC.GETW` (R78 to R80) -/

/-- An index of at most 5 names a byte of `mac`. -/
theorem macIndex_of_le {i : IndexField} (h : i.toNat ≤ 5) : ∃ k : Fin 6, macIndex i = some k ∧ k.val = i.toNat :=
  macIndex_of_legal (decide_eq_true h)

theorem exec_macSetb_of_index {i : IndexField} {k : Fin 6} (h : macIndex i = some k) (b : Byte) (s : State) :
    exec (.macSetb i b) s = .next ((s.setMac (s.mac.set k b)).answeredWith 0) := by
  rw [← respond_statusOk]
  simp only [exec, execMacSetb, h]

theorem exec_macGetb_of_index {i : IndexField} {k : Fin 6} (h : macIndex i = some k) (s : State) :
    exec (.macGetb i) s = .next (s.answeredWith (0#24 ++ s.mac.get k)) := by
  rw [← zext32_byte, ← respond_statusOk]
  simp only [exec, execMacGetb, h]

theorem exec_macGetw_of_index {i : IndexField} {k : Fin 6} (h : macIndex i = some k) (s : State) :
    exec (.macGetw i) s = .next (s.answeredWith (0#24 ++ s.mac.get (wireIndex k))) := by
  rw [← zext32_byte, ← respond_statusOk]
  simp only [exec, execMacGetw, h]

/-- `mac[k]` is entry `k` of the bytes in display order (R17). -/
theorem Mac.getElem?_bytes (m : Mac) (k : Fin 6) :
    [m.b0, m.b1, m.b2, m.b3, m.b4, m.b5][k.val]? = some (m.get k) := by
  fin_cases k <;> rfl

/-- Byte `k` of the reversed address is `mac[5 - k]` (R81). -/
theorem Mac.get_wire (m : Mac) (k : Fin 6) : (wire m).get k = m.get (wireIndex k) := by
  fin_cases k <;> rfl

/-- Settles O45: `mac` after the command is `mac` with one byte set. -/
theorem macSetbWritesOneByte : Obligations.MacSetbWritesOneByte := by
  refine fun i b s => ⟨fun hi => ⟨?_, ?_⟩, fun cw hop h => ?_⟩
  · obtain ⟨_, he, hz⟩ := Laws.ReservedZero.macSetb i b
    cases he
    exact decode_append_of_index rfl hz (congrArg some (fieldIHigh_encode i b)) hi
      (congrArg₂ Instr.macSetb (fieldIHigh_encode i b) (fieldB_encode_macSetb i b))
  · obtain ⟨k, hk, hval⟩ := macIndex_of_le hi
    refine ⟨s.mac.set k b, exec_macSetb_of_index hk b s, fun j => ?_⟩
    simp only [Mac.get_set, Fin.ext_iff, hval]
  · obtain hr | h6 := h
    · exact perform_of_reservedField (fmt := .IB) hop rfl (by decide) (by decide) hr s
    · rw [← extractLsb'_argField cw (by decide)] at h6
      exact perform_of_reservedIndex (fmt := .IB) hop rfl rfl h6 s

/-- Settles O46: the byte answered is the one the index names in the register itself. -/
theorem macGetbAnswersInDisplayOrder : Obligations.MacGetbAnswersInDisplayOrder := by
  refine fun i s => ⟨fun hi => ⟨decode_formatI (build := .macGetb) rfl hi, ?_⟩,
    fun cw hop h => perform_of_illegalI hop rfl h s⟩
  obtain ⟨k, hk, hval⟩ := macIndex_of_le hi
  exact ⟨s.mac.get k, hval ▸ Mac.getElem?_bytes s.mac k, exec_macGetb_of_index hk s⟩

/-- Settles O47: the byte answered is the one the index names in the reversed address. -/
theorem macGetwAnswersInWireOrder : Obligations.MacGetwAnswersInWireOrder := by
  refine fun i s => ⟨fun hi => ⟨decode_formatI (build := .macGetw) rfl hi, ?_⟩,
    fun cw hop h => perform_of_illegalI hop rfl h s⟩
  obtain ⟨k, hk, hval⟩ := macIndex_of_le hi
  refine ⟨s.mac.get (wireIndex k), ?_, exec_macGetw_of_index hk s⟩
  rw [← hval, ← Mac.get_wire]
  exact Mac.getElem?_bytes (wire s.mac) k

end Sys2Proof.Machine

/-! The statements of spec/43_access_address.md: `AA.PARSE` and `AA.FMT` (R83 to R87). -/

namespace Sys2Proof.Machine

/-! ## `AA.PARSE` (R84, R85) -/

/-- Digit `p` of a decoded text, the first the most significant, is the value of character `p` (R84). The widths
stay written as sums, so that the library's lemmas on a field of two vectors side by side apply. -/
theorem aaDecode_digit (t : Nat → Byte) {p : Nat} (hp : p < 8) :
    (aaDecode t).extractLsb' (28 - 4 * p) 4 = hexval (t p) := by
  unfold aaDecode
  interval_cases p <;>
    simp [-Nat.reduceAdd, BitVec.extractLsb'_append_eq_of_le, BitVec.extractLsb'_append_eq_of_add_le]

theorem aaValidate_of_ne {w : Word} (hw : w ≠ 8) (t : Nat → Byte) : aaValidate w t = some .invalidLength := by
  obtain ⟨-, h⟩ | ⟨h8, -⟩ | ⟨h8, -⟩ := aaValidate_cases w t
  · exact h
  · exact absurd h8 hw
  · exact absurd h8 hw

theorem aaValidate_of_bad {t : Nat → Byte} (hbad : ∃ p < 8, isHex (t p) = false) :
    aaValidate 8 t = some .invalidCharacter := by
  obtain ⟨hne, -⟩ | ⟨-, h, -⟩ | ⟨-, -, hgood⟩ := aaValidate_cases 8 t
  · exact absurd rfl hne
  · exact h
  · obtain ⟨p, hp, hb⟩ := hbad
    exact absurd (hgood p hp) (Bool.eq_false_iff.mp hb)

theorem aaValidate_of_good {t : Nat → Byte} (hgood : ∀ p < 8, isHex (t p) = true) : aaValidate 8 t = none := by
  obtain ⟨hne, -⟩ | ⟨-, -, p, hp, hb⟩ | ⟨-, h, -⟩ := aaValidate_cases 8 t
  · exact absurd rfl hne
  · exact absurd (hgood p hp) (Bool.eq_false_iff.mp hb)
  · exact h

theorem exec_aaParse_of_error {w : Word} {s : State} {e : Err} (h : aaValidate w (textOf s) = some e) :
    exec (.aaParse w) s = .next (s.rejectedWith e.code) := by
  rw [← raise_eq_rejectedWith]
  simp only [exec, execAaParse, h]

theorem exec_aaParse_of_ok {w : Word} {s : State} (h : aaValidate w (textOf s) = none) :
    exec (.aaParse w) s = .next (s.answeredWith (aaDecode (textOf s))) := by
  rw [← respond_statusOk]
  simp only [exec, execAaParse, h]

/-- Settles O53: each of the three answers of `aa_validate` decides how the command ends, and the value answered is the
decoded text. -/
theorem aaParseAnswersTheValue : Obligations.AaParseAnswersTheValue := by
  refine fun w s => ⟨?_, fun hw => ?_, fun hbad => ?_, fun hgood => ?_⟩
  · exact decode_append (fmt := .W) rfl BitVec.and_zero rfl rfl
  · exact exec_aaParse_of_error (e := .invalidLength) (aaValidate_of_ne hw _)
  · exact exec_aaParse_of_error (e := .invalidCharacter) (aaValidate_of_bad hbad)
  · exact ⟨aaDecode (textOf s), exec_aaParse_of_ok (aaValidate_of_good hgood),
      fun p hp => aaDecode_digit (textOf s) hp⟩

/-! ## `AA.FMT` (R86, R87) -/

theorem exec_aaFmt (w : Word) (s : State) :
    exec (.aaFmt w) s = .next ((s.setTb (s.tb.writeText (aaFormat w) aaTextLen)).answeredWith 8) :=
  respond_statusOk (BitVec.ofNat 32 aaTextLen) _

/-- Settles O54: the buffer after the command is `TB` with the digits of `w` written over its first eight bytes. -/
theorem aaFmtWritesTheDigits : Obligations.AaFmtWritesTheDigits := by
  have hsize : aaTextLen ≤ tbSize := by decide
  refine fun w s => ⟨decode_append (fmt := .W) rfl BitVec.and_zero rfl rfl,
    s.tb.writeText (aaFormat w) aaTextLen, exec_aaFmt w s, fun p hp => ?_, fun a ha => ?_⟩
  · exact Memory.read_writeText_ofNat s.tb (aaFormat w) hsize hp
  · exact Memory.read_writeText_beyond s.tb (aaFormat w) hsize ha

end Sys2Proof.Machine

/-! The statement of spec/44_channel.md: `CH.RESOLVE` (R89 to R91). -/

namespace Sys2Proof.Machine

/-! ## `CH.RESOLVE` (R90) -/

theorem exec_chResolve_of_some {w freq : Word} (h : resolveChannel w = some freq) (s : State) :
    exec (.chResolve w) s = .next (s.answeredWith freq) := by
  rw [← respond_statusOk]
  simp only [exec, execChResolve, h]

theorem exec_chResolve_of_none {w : Word} (h : resolveChannel w = none) (s : State) :
    exec (.chResolve w) s = .next (s.rejectedWith 3) := by
  refine Eq.trans ?_ (raise_eq_rejectedWith .invalidChannel s)
  simp only [exec, execChResolve, h]

/-- Settles O57: the command ends as the table's row for `w` says, or is rejected where `w` has none. -/
theorem chResolveLooksUpTheTable : Obligations.ChResolveLooksUpTheTable := by
  refine fun w s => ⟨decode_append (fmt := .W) rfl BitVec.and_zero rfl rfl, ?_⟩
  have hrow := resolveChannel_eq w
  split_ifs at hrow ⊢
  · exact exec_chResolve_of_some hrow s
  · exact exec_chResolve_of_some hrow s
  · exact exec_chResolve_of_some hrow s
  · exact exec_chResolve_of_none hrow s

end Sys2Proof.Machine

/-! The statements of spec/45_system.md: `NOP`, `ESR.GET` and `ESR.CLR` (R93 to R95). -/

namespace Sys2Proof.Machine

/-! ## Format Z: `NOP` and `ESR.GET` (R93, R94) -/

/-- Format Z reserves all of `arg`, so its commands' words are refused with any nonzero `arg` (R42, R47). -/
theorem perform_of_nonzeroArg {cw : CmdWord} {op : Byte} (hop : cw.extractLsb' 32 8 = op) (hf : .Z ∈ formatOf op)
    (harg : cw.extractLsb' 0 32 ≠ 0) (s : State) : perform cw s = .next (s.rejectedWith 4) :=
  perform_of_reservedBits hop hf ((and_reservedZ (argField cw)).symm ▸ harg) s

/-- Settles O58: the word of zeros is the opcode's row with `arg` 0, and the response is the command's only effect. -/
theorem nopChangesNothing : Obligations.NopChangesNothing :=
  fun s => ⟨decode_append (op := 0x00) (arg := 0) rfl rfl rfl rfl, respond_statusOk 0 s,
    fun _ hop harg => perform_of_nonzeroArg hop rfl harg s⟩

theorem zext32_esr (v : EsrReg) : zext32 v = 0#28 ++ v := BitVec.setWidth_eq_append (by decide)

/-- Settles O59: the register zero-extended is 28 zeros above it, answered on the state as it was. -/
theorem esrGetAnswersTheFlags : Obligations.EsrGetAnswersTheFlags := by
  refine fun s => ⟨decode_append (op := 0x01) (arg := 0) rfl rfl rfl rfl, ?_,
    fun cw hop harg => perform_of_nonzeroArg hop rfl harg s⟩
  rw [← zext32_esr]
  exact respond_statusOk (zext32 s.esr) s

/-! ## `ESR.CLR` (R95) -/

/-- A flag is up afterwards exactly if it was up and the mask does not select it. -/
theorem getLsbD_clearFlags (m esr : EsrReg) {k : Nat} (hk : k < 4) :
    (clearFlags m esr).getLsbD k = (esr.getLsbD k && !m.getLsbD k) := by
  simp [clearFlags, hk]

/-- Settles O60: the flags after the command are the old ones less the mask, the answer is taken before the write, and
a word with one of `arg[31:4]` set is refused. -/
theorem esrClrClearsTheMask : Obligations.EsrClrClearsTheMask := by
  refine fun m s => ⟨?_, ⟨clearFlags m s.esr, ?_, fun k hk => getLsbD_clearFlags m s.esr hk⟩, fun cw hop hr => ?_⟩
  · obtain ⟨_, he, hz⟩ := Laws.ReservedZero.esrClr m
    cases he
    exact decode_append rfl hz rfl (congrArg Instr.esrClr (fieldM_encode m))
  · rw [← zext32_esr]
    exact respond_statusOk (zext32 s.esr) (s.setEsr (clearFlags m s.esr))
  · exact perform_of_reservedField (fmt := .M) hop rfl (by decide) (by decide) hr s

end Sys2Proof.Machine

/-! The statements of spec/60_exceptions.md: what `raise` does (R97, R101), and which command words raise each of the
four errors (R98 to R100, R102). -/

namespace Sys2Proof.Machine

/-! ## `raise` (R97, R101) -/

/-- Settles O19: `raise_next` for each error, with its code and flag evaluated. -/
theorem raiseRejects : Obligations.RaiseRejects :=
  fun s => ⟨raise_next .invalidLength s, raise_next .invalidCharacter s, raise_next .invalidChannel s,
    raise_next .illegalCommand s⟩

theorem Err.code_ne_statusOk (e : Err) : e.code ≠ statusOk := by
  cases e <;> decide

theorem Err.code_injective : Function.Injective Err.code := by
  intro e e' h
  revert h
  cases e <;> cases e' <;> decide

/-- The last response tells a command's end from the raising of any other error. -/
theorem status_eq_of_respond_eq_raise {st : BitVec 4} {val : Word} {u s : State} {e : Err}
    (h : respond st val u = raise e s) : st = e.code := by
  have hrsps : u.rsps ++ [⟨st, val⟩] = s.rsps ++ [⟨e.code, 0⟩] :=
    congrArg State.rsps (Host.Outcome.next.inj h)
  exact congrArg Response.st (List.singleton_inj.mp (List.append_inj_right' hrsps rfl))

theorem respond_statusOk_ne_raise (val : Word) (u s : State) (e : Err) : respond statusOk val u ≠ raise e s :=
  fun h => e.code_ne_statusOk (status_eq_of_respond_eq_raise h).symm

theorem raise_eq_raise_iff {e e' : Err} {s : State} : raise e s = raise e' s ↔ e = e' :=
  ⟨fun h => Err.code_injective (status_eq_of_respond_eq_raise h), fun h => h ▸ rfl⟩

/-! ## Which error a text or a channel index gives (R73, R84, R89) -/

theorem macValidate_eq_some_iff (w : Word) (t : Nat → Byte) (e : Err) :
    macValidate w t = some e ↔
      (e = .invalidLength ∧ w ≠ 17) ∨ (e = .invalidCharacter ∧ w = 17 ∧ ∃ p < 17, MacCharBad t p) := by
  obtain ⟨hw, h⟩ | ⟨hw, h, hbad⟩ | ⟨hw, h, hgood⟩ := macValidate_cases w t
  · rw [h, Option.some_inj, eq_comm, or_iff_left fun ⟨_, hlen, _⟩ => hw hlen, and_iff_left hw]
  · rw [h, Option.some_inj, eq_comm, or_iff_right fun ⟨_, hlen⟩ => hlen hw, and_iff_left ⟨hw, hbad⟩]
  · rw [h]
    simpa [hw] using fun _ => hgood

theorem aaValidate_eq_some_iff (w : Word) (t : Nat → Byte) (e : Err) :
    aaValidate w t = some e ↔
      (e = .invalidLength ∧ w ≠ 8) ∨ (e = .invalidCharacter ∧ w = 8 ∧ ∃ p < 8, isHex (t p) = false) := by
  obtain ⟨hw, h⟩ | ⟨hw, h, hbad⟩ | ⟨hw, h, hgood⟩ := aaValidate_cases w t
  · rw [h, Option.some_inj, eq_comm, or_iff_left fun ⟨_, hlen, _⟩ => hw hlen, and_iff_left hw]
  · rw [h, Option.some_inj, eq_comm, or_iff_right fun ⟨_, hlen⟩ => hlen hw, and_iff_left ⟨hw, hbad⟩]
  · rw [h]
    simpa [hw] using fun _ => hgood

theorem resolveChannel_eq_none_iff (w : Word) : resolveChannel w = none ↔ w ≠ 37 ∧ w ≠ 38 ∧ w ≠ 39 := by
  rw [resolveChannel_eq]
  split_ifs <;> simp_all

/-! ## Which commands raise an error -/

/-- The decoder hands over no reserved byte index (R45, R48). -/
theorem wf_of_decode_ok {cw : CmdWord} {i : Instr} (h : decode cw = .ok i) : i.wf = true := by
  obtain ⟨fmt, build, he, -, hindex, rfl⟩ := (decode_ok_iff cw i).mp h
  unfold opcodeEntry at he
  split at he <;> cases he
  case h_11 | h_12 | h_13 => exact hindex _ rfl
  all_goals rfl

/-- A command with an encoding raises an error only where it validates a text or looks a channel up. -/
theorem exec_eq_raise_iff {i : Instr} (hi : i.wf = true) (s : State) (e : Err) :
    exec i s = raise e s ↔
      (∃ w, i = .macParse w ∧ macValidate w (textOf s) = some e) ∨
      (∃ w, i = .aaParse w ∧ aaValidate w (textOf s) = some e) ∨
      (∃ w, i = .chResolve w ∧ resolveChannel w = none ∧ e = .invalidChannel) := by
  cases i with
  | macParse w =>
    cases h : macValidate w (textOf s) with
    | some e' => simp [exec, execMacParse, h, raise_eq_raise_iff]
    | none => simp [exec, execMacParse, h, respond_statusOk_ne_raise]
  | aaParse w =>
    cases h : aaValidate w (textOf s) with
    | some e' => simp [exec, execAaParse, h, raise_eq_raise_iff]
    | none => simp [exec, execAaParse, h, respond_statusOk_ne_raise]
  | chResolve w =>
    cases h : resolveChannel w with
    | some freq => simp [exec, execChResolve, h, respond_statusOk_ne_raise]
    | none => simp [exec, execChResolve, h, raise_eq_raise_iff, eq_comm]
  | macSetb k b =>
    obtain ⟨_, hk, -⟩ := macIndex_of_legal hi
    simp [exec, execMacSetb, hk, respond_statusOk_ne_raise]
  | macGetb k =>
    obtain ⟨_, hk, -⟩ := macIndex_of_legal hi
    simp [exec, execMacGetb, hk, respond_statusOk_ne_raise]
  | macGetw k =>
    obtain ⟨_, hk, -⟩ := macIndex_of_legal hi
    simp [exec, execMacGetw, hk, respond_statusOk_ne_raise]
  | _ => exact iff_of_false (respond_statusOk_ne_raise _ _ s e) (by simp)

/-- Every way a performed word can raise an error. -/
theorem perform_eq_raise_iff (cw : CmdWord) (s : State) (e : Err) :
    perform cw s = raise e s ↔
      (e = .illegalCommand ∧ ∃ r, decode cw = .error r) ∨
      (∃ w, decode cw = .ok (.macParse w) ∧ macValidate w (textOf s) = some e) ∨
      (∃ w, decode cw = .ok (.aaParse w) ∧ aaValidate w (textOf s) = some e) ∨
      (∃ w, decode cw = .ok (.chResolve w) ∧ resolveChannel w = none ∧ e = .invalidChannel) := by
  obtain ⟨i, hd, hp⟩ | ⟨⟨r, hd⟩, hp⟩ := perform_cases cw s
  · simp [hp, hd, exec_eq_raise_iff (wf_of_decode_ok hd)]
  · simp [hp, hd, raise_eq_raise_iff, eq_comm]

theorem perform_raises_invalidLength_iff (cw : CmdWord) (s : State) :
    perform cw s = raise .invalidLength s ↔
      (∃ w, decode cw = .ok (.macParse w) ∧ w ≠ 17) ∨ ∃ w, decode cw = .ok (.aaParse w) ∧ w ≠ 8 := by
  simp [perform_eq_raise_iff, macValidate_eq_some_iff, aaValidate_eq_some_iff]

theorem perform_raises_invalidCharacter_iff (cw : CmdWord) (s : State) :
    perform cw s = raise .invalidCharacter s ↔
      (decode cw = .ok (.macParse 17) ∧ ∃ p < 17, MacCharBad (textOf s) p) ∨
      (decode cw = .ok (.aaParse 8) ∧ ∃ p < 8, isHex (textOf s p) = false) := by
  simp [perform_eq_raise_iff, macValidate_eq_some_iff, aaValidate_eq_some_iff]

theorem perform_raises_invalidChannel_iff (cw : CmdWord) (s : State) :
    perform cw s = raise .invalidChannel s ↔
      ∃ w, decode cw = .ok (.chResolve w) ∧ w ≠ 37 ∧ w ≠ 38 ∧ w ≠ 39 := by
  simp [perform_eq_raise_iff, macValidate_eq_some_iff, aaValidate_eq_some_iff, resolveChannel_eq_none_iff]

theorem perform_raises_illegalCommand_iff (cw : CmdWord) (s : State) :
    perform cw s = raise .illegalCommand s ↔ ∃ r, decode cw = .error r := by
  simp [perform_eq_raise_iff, macValidate_eq_some_iff, aaValidate_eq_some_iff]

/-! ## The status answered (R98 to R100, R102) -/

/-- A performed word succeeds, on a state with the same responses so far, or raises an error. -/
theorem perform_ends (cw : CmdWord) (s : State) :
    (∃ u val, perform cw s = respond statusOk val u ∧ u.rsps = s.rsps) ∨ ∃ e, perform cw s = raise e s := by
  obtain ⟨i, -, hp⟩ | ⟨-, hp⟩ := perform_cases cw s
  · rw [hp]
    obtain ⟨u, val, h, ⟨-, -, hrsps, -⟩, -⟩ | h := exec_cases i s
    · exact .inl ⟨u, val, h, hrsps⟩
    · exact .inr h
  · exact .inr ⟨_, hp⟩

/-- An error's code is answered exactly when the error is raised, and the next state is then that of `raise`. -/
theorem perform_status_iff {cw : CmdWord} {s : State} {e : Err} {P : Prop} (hP : perform cw s = raise e s ↔ P) :
    ∃ t r, perform cw s = .next t ∧ t.rsps = s.rsps ++ [r] ∧
      (r.st = e.code ↔ P) ∧ (r.st = e.code → t = s.rejectedWith e.code) := by
  rw [← hP]
  obtain ⟨u, val, h, hrsps⟩ | ⟨e', h⟩ := perform_ends cw s
  · refine ⟨u.answer statusOk val, ⟨statusOk, val⟩, h, by simp [hrsps], ?_, fun hst => ?_⟩
    · simp [h, respond_statusOk_ne_raise, e.code_ne_statusOk.symm]
    · exact absurd hst.symm e.code_ne_statusOk
  · refine ⟨s.rejectedWith e'.code, ⟨e'.code, 0⟩, h, rfl, ?_, fun hst => congrArg s.rejectedWith hst⟩
    rw [h, raise_eq_raise_iff, Err.code_injective.eq_iff]

/-- Settles O20: of the commands that raise an error, the two parse commands raise this one, for their length. -/
theorem invalidLengthExactly : Obligations.InvalidLengthExactly :=
  fun cw s => perform_status_iff (perform_raises_invalidLength_iff cw s)

/-- Settles O21: the two parse commands raise this error, for a text of the right length that fails a check. -/
theorem invalidCharacterExactly : Obligations.InvalidCharacterExactly :=
  fun cw s => perform_status_iff (perform_raises_invalidCharacter_iff cw s)

/-- Settles O22: `CH.RESOLVE` alone raises this error, for an index the table does not hold. -/
theorem invalidChannelExactly : Obligations.InvalidChannelExactly :=
  fun cw s => perform_status_iff (perform_raises_invalidChannel_iff cw s)

theorem formatOf_formatW : ∀ op ∈ ([0x10, 0x30, 0x40, 0x41, 0x50] : List Byte), formatOf op = some .W := by
  decide

/-- Settles O23: no decoded command raises this error, and format W has neither reserved bits nor a byte index. -/
theorem illegalCommandExactly : Obligations.IllegalCommandExactly := by
  refine ⟨fun cw s => perform_status_iff (perform_raises_illegalCommand_iff cw s), fun cw hop => ?_⟩
  exact (decodes_iff_of_format (formatOf_formatW _ hop)).mpr ⟨BitVec.and_zero, nofun, nofun⟩

end Sys2Proof.Machine

/-! The statement of spec/70_reset_and_hazards.md: the port `rst` (R113). -/

namespace Sys2Proof.Machine

/-! ## The port `rst` (R113) -/

/-- Settles O10: the block's registers take their reset values, whose zeros are `resetStateIsZero` (R24), and `rst`
updates no field of the host's side that the claim names. -/
theorem rstClearsTheBlock : Obligations.RstClearsTheBlock := by
  intro s
  obtain ⟨hcrc, hmac, htb, hesr⟩ := resetStateIsZero
  exact ⟨hcrc, hmac, htb, hesr, s.applyRst_rsps, s.applyRst_pc, s.applyRst_prog⟩

end Sys2Proof.Machine

/-! The statements of spec/30_encoding.md on every word and every command: the round trips of encoder and decoder, the
match and mask columns of the opcode map, and the operands of the assembler (R42 to R45, R51, R53). -/

namespace Sys2Proof.Machine

/-! ## Decoding what was encoded (R42, R45, R53) -/

/-- Settles O1: each word is evaluated. -/
theorem wordsOfTheSpecDecode : Obligations.WordsOfTheSpecDecode :=
  ⟨rfl, rfl, rfl, rfl, rfl, rfl, rfl, rfl, rfl, rfl, rfl, rfl, rfl, rfl, rfl, rfl⟩

/-- Every command leaves the bits its format reserves at 0 (R42). -/
theorem encodeArg_reservedZero : ∀ i : Instr, Laws.ReservedZero.Statement i
  | .nop => Laws.ReservedZero.nop
  | .esrGet => Laws.ReservedZero.esrGet
  | .esrClr m => Laws.ReservedZero.esrClr m
  | .crcSeed w => Laws.ReservedZero.crcSeed w
  | .crcByte b => Laws.ReservedZero.crcByte b
  | .crcGet => Laws.ReservedZero.crcGet
  | .tbWr a b => Laws.ReservedZero.tbWr a b
  | .tbRd a => Laws.ReservedZero.tbRd a
  | .macParse w => Laws.ReservedZero.macParse w
  | .macFmt => Laws.ReservedZero.macFmt
  | .macSetb i b => Laws.ReservedZero.macSetb i b
  | .macGetb i => Laws.ReservedZero.macGetb i
  | .macGetw i => Laws.ReservedZero.macGetw i
  | .aaParse w => Laws.ReservedZero.aaParse w
  | .aaFmt w => Laws.ReservedZero.aaFmt w
  | .chResolve w => Laws.ReservedZero.chResolve w

/-- The row of a command's opcode builds the command from its encoded operands, and the byte index it sees there, if it
sees one, is the one that well-formedness bounds. -/
theorem opcodeEntry_opcode (i : Instr) : ∃ fmt build, opcodeEntry (opcode i) = some (fmt, build) ∧
    build (encodeArg i) = i ∧ ∀ k, fmt.indexOf (encodeArg i) = some k → IndexField.legal k = i.wf := by
  cases i with
  | nop | esrGet | crcGet | macFmt | crcSeed | macParse | aaParse | aaFmt | chResolve => exact ⟨_, _, rfl, rfl, nofun⟩
  | esrClr m => exact ⟨_, _, rfl, congrArg Instr.esrClr (fieldM_encode m), nofun⟩
  | crcByte b => exact ⟨_, _, rfl, congrArg Instr.crcByte (fieldB_encode_crcByte b), nofun⟩
  | tbWr a b => exact ⟨_, _, rfl, congrArg₂ Instr.tbWr (fieldAHigh_encode a b) (fieldB_encode_tbWr a b), nofun⟩
  | tbRd a => exact ⟨_, _, rfl, congrArg Instr.tbRd (fieldALow_encode a), nofun⟩
  | macSetb i b =>
    have hi := fieldIHigh_encode i b
    refine ⟨_, _, rfl, congrArg₂ Instr.macSetb hi (fieldB_encode_macSetb i b), fun k hk => ?_⟩
    exact congrArg IndexField.legal ((Option.some.inj hk).symm.trans hi)
  | macGetb i =>
    have hi := fieldILow_encode_macGetb i
    refine ⟨_, _, rfl, congrArg Instr.macGetb hi, fun k hk => ?_⟩
    exact congrArg IndexField.legal ((Option.some.inj hk).symm.trans hi)
  | macGetw i =>
    have hi := fieldILow_encode_macGetw i
    refine ⟨_, _, rfl, congrArg Instr.macGetw hi, fun k hk => ?_⟩
    exact congrArg IndexField.legal ((Option.some.inj hk).symm.trans hi)

/-- Settles O2: the word's opcode finds the command's own row, whose checks the encoded operands pass. -/
theorem decodeGivesBackTheEncodedCommand : Obligations.DecodeGivesBackTheEncodedCommand := by
  intro i hwf
  obtain ⟨fmt, build, he, hbuild, hindex⟩ := opcodeEntry_opcode i
  obtain ⟨_, he', hz⟩ := encodeArg_reservedZero i
  obtain rfl := Option.some.inj (he.symm.trans he')
  rw [decode_ok_iff, opField_encode, argField_encode]
  exact ⟨fmt, build, he, hz, fun k hk => (hindex k hk).trans hwf, hbuild.symm⟩

/-! ## Encoding what was decoded (R42, R45) -/

/-- A vector is its low field with zeros above when a mask of the high bits clears it. -/
theorem zero_append_extractLsb'_of_and_highMask {v w : Nat} {x : BitVec (v + w)}
    (h : x &&& (BitVec.allOnes v ++ 0#w) = 0) : 0#v ++ x.extractLsb' 0 w = x := by
  have hz : x.extractLsb' w v = 0#v := extractLsb'_eq_zero_of_and_highMask h
  rw [← hz, BitVec.extractLsb'_append_extractLsb']

/-- A vector is its two low fields with zeros above when its bits above them are 0. -/
theorem zero_append_fields_of_high_eq_zero {u v w : Nat} {x : BitVec (u + v + w)}
    (h : x.extractLsb' (w + v) u = 0) : 0#u ++ x.extractLsb' w v ++ x.extractLsb' 0 w = x := by
  have hz : x.extractLsb' (w + v) u = 0#u := h
  rw [← hz, BitVec.extractLsb'_append_extractLsb'_eq_extractLsb' rfl, BitVec.extractLsb'_append_extractLsb']

/-- A row builds a command whose encoded operands are the `arg` it was built from: no bit of it is dropped, those the
format reserves being 0. -/
theorem encodeArg_build {op : Byte} {fmt : Format} {build : Word → Instr} {arg : Word}
    (he : opcodeEntry op = some (fmt, build)) (hr : arg &&& fmt.reserved = 0) : encodeArg (build arg) = arg := by
  unfold opcodeEntry at he
  split at he <;> cases he
  case h_1 | h_2 | h_6 | h_10 => exact hr.symm.trans (and_reservedZ arg)
  case h_3 => exact zero_append_extractLsb'_of_and_highMask (v := 28) (w := 4) hr
  case h_5 => exact zero_append_extractLsb'_of_and_highMask (v := 24) (w := 8) hr
  case h_7 =>
    exact zero_append_fields_of_high_eq_zero (u := 19) (v := 5) (w := 8)
      (extractLsb'_eq_zero_of_and_highMask (v := 19) (w := 13) hr)
  case h_8 => exact zero_append_extractLsb'_of_and_highMask (v := 27) (w := 5) hr
  case h_11 =>
    exact zero_append_fields_of_high_eq_zero (u := 21) (v := 3) (w := 8)
      (extractLsb'_eq_zero_of_and_highMask (v := 21) (w := 11) hr)
  case h_12 | h_13 => exact zero_append_extractLsb'_of_and_highMask (v := 29) (w := 3) hr
  all_goals rfl

/-- Settles O3: the row that decodes the word gives back its opcode and its `arg`. -/
theorem encodeGivesBackTheDecodedWord : Obligations.EncodeGivesBackTheDecodedWord := by
  intro cw i h
  refine ⟨wf_of_decode_ok h, ?_⟩
  obtain ⟨fmt, build, he, hr, -, rfl⟩ := (decode_ok_iff cw i).mp h
  rw [encode, opcode_of_entry he, encodeArg_build he hr, opField_append_argField]

/-! ## The match and mask columns (R44) -/

/-- The lowest bit of the byte index of a format, where it has one (R42). -/
def indexLow : Format → Option Nat
  | .IB => some 8
  | .I => some 0
  | _ => none

/-- Each row's columns are those of its opcode and its opcode's format: `op` and the reserved bits are compared, the
rest is not, and the extra constraint bounds the byte index. -/
theorem opcodeTable_columns : ∀ r ∈ opcodeTable, ∃ fmt ∈ formatOf r.op,
    r.mask = 0xFF#8 ++ fmt.reserved ∧ r.matchBits = r.op ++ 0#32 ∧ r.index = indexLow fmt := by
  intro r hr
  fin_cases hr <;> exact ⟨_, rfl, rfl, rfl, rfl⟩

theorem opcode_mem_opcodeTable (i : Instr) : ∃ r ∈ opcodeTable, r.op = opcode i := by
  cases i <;> simp [opcode, opcodeTable]

theorem opcodeTable_op_injective : ∀ r ∈ opcodeTable, ∀ r' ∈ opcodeTable, r.op = r'.op → r = r' := by
  decide

/-- The comparison of a row under its mask: the opcode in full, and 0 in the bits the format reserves. -/
theorem and_mask_eq_match_iff (cw : CmdWord) (op : Byte) (reserved : Word) :
    cw &&& (0xFF#8 ++ reserved) = op ++ 0#32 ↔ opField cw = op ∧ argField cw &&& reserved = 0 := by
  have hop : opField cw &&& 0xFF#8 = opField cw := BitVec.and_allOnes
  constructor
  · intro h
    rw [← opField_append_argField cw, append_and_append, hop] at h
    exact ⟨by simpa using congrArg opField h, by simpa using congrArg argField h⟩
  · rintro ⟨rfl, hr⟩
    conv_lhs => rw [← opField_append_argField cw, append_and_append, hop, hr]
    rfl

/-- A row's two checks: the comparison under the mask and the extra constraint, if there is one (R44). -/
theorem selects_eq_true_iff (r : OpRow) (cw : CmdWord) :
    r.selects cw = true ↔ cw &&& r.mask = r.matchBits ∧ ∀ lo ∈ r.index, (cw.extractLsb' lo 3).toNat ≤ 5 := by
  obtain ⟨op, matchBits, mask, _ | lo⟩ := r <;> simp [OpRow.selects]

theorem indexLow_bounded_iff (fmt : Format) (cw : CmdWord) :
    (∀ lo ∈ indexLow fmt, (cw.extractLsb' lo 3).toNat ≤ 5) ↔
      (fmt = .IB → (cw.extractLsb' 8 3).toNat ≤ 5) ∧ (fmt = .I → (cw.extractLsb' 0 3).toNat ≤ 5) := by
  cases fmt <;> simp [indexLow]

/-- A row selects a word exactly when the word has the row's opcode and decodes. -/
theorem selects_iff_decodes {r : OpRow} (hr : r ∈ opcodeTable) (cw : CmdWord) :
    r.selects cw = true ↔ opField cw = r.op ∧ ∃ i, decode cw = .ok i := by
  obtain ⟨fmt, hf, hmask, hmatch, hindex⟩ := opcodeTable_columns r hr
  rw [selects_eq_true_iff, hmask, hmatch, hindex, and_mask_eq_match_iff, indexLow_bounded_iff, and_assoc]
  exact and_congr_right fun hop => (decodes_iff_of_format (hop ▸ hf)).symm

/-- Settles O4: the row that selects a word is the one of its opcode. -/
theorem opcodeMapAgreesWithDecoder : Obligations.OpcodeMapAgreesWithDecoder := by
  refine ⟨fun cw => ⟨?_, ?_⟩, fun cw i r hr hsel hdec => ?_, fun cw r hr r' hr' hsel hsel' => ?_⟩
  · rintro ⟨r, hr, hsel⟩
    exact ((selects_iff_decodes hr cw).mp hsel).2
  · rintro ⟨i, hdec⟩
    obtain ⟨r, hr, hop⟩ := opcode_mem_opcodeTable i
    exact ⟨r, hr, (selects_iff_decodes hr cw).mpr ⟨(opcode_of_decode_ok hdec).symm.trans hop.symm, i, hdec⟩⟩
  · obtain ⟨hop, -⟩ := (selects_iff_decodes hr cw).mp hsel
    exact hop.symm.trans (opcode_of_decode_ok hdec).symm
  · obtain ⟨hop, -⟩ := (selects_iff_decodes hr cw).mp hsel
    obtain ⟨hop', -⟩ := (selects_iff_decodes hr' cw).mp hsel'
    exact opcodeTable_op_injective r hr r' hr' (hop.symm.trans hop')

/-! ## The operands of the assembler (R53) -/

@[simp] theorem operandFits_toNat {n : Nat} (v : BitVec n) : operandFits n v.toNat = some v := by
  simp [operandFits, v.isLt]

theorem operandFits_of_ge {bits n : Nat} (h : 2 ^ bits ≤ n) : operandFits bits n = none :=
  if_neg (Nat.not_lt.mpr h)

theorem indexFits_toNat {i : IndexField} (h : IndexField.legal i = true) : indexFits i.toNat = some i := by
  simp [indexFits, of_decide_eq_true h]

theorem indexFits_of_ge {n : Nat} (h : 6 ≤ n) : indexFits n = none := if_neg (by omega)

/-- A mnemonic finds the pattern of its own command, whose operands are not looked at: the assembler compares the
mnemonic and counts the operands given, of which no command takes more than two. -/
theorem assembleInstr_mnemonicOf (i : Instr) (ops : List Nat) :
    assembleInstr (mnemonicOf i) ops = assembleOperands i ops := by
  cases i <;> obtain _ | ⟨_, _ | ⟨_, _ | ⟨_, _⟩⟩⟩ := ops <;> rfl

/-- A command's own operands are in range. -/
theorem assembleOperands_operandsOf (i : Instr) (h : i.wf = true) : assembleOperands i (operandsOf i) = some i := by
  cases i with
  | macSetb i b | macGetb i | macGetw i => simp [assembleOperands, operandsOf, indexFits_toNat h]
  | _ => simp [assembleOperands, operandsOf]

/-- Settles O7: a mnemonic's operands are the numbers below the size of their field. -/
theorem assemblerGivesBackTheCommand : Obligations.AssemblerGivesBackTheCommand := by
  simp only [Obligations.AssemblerGivesBackTheCommand, assembleInstr_mnemonicOf]
  refine ⟨assembleOperands_operandsOf, fun n h => ?_, fun n h => ?_, fun n b h => ?_, fun n h => ?_, fun n b h => ?_,
    fun n h => ?_, fun n h => ?_⟩
  · simp [assembleOperands, operandFits_of_ge (bits := 4) h]
  · simp [assembleOperands, operandFits_of_ge (bits := 8) h]
  · obtain ha | hb := h
    · simp [assembleOperands, operandFits_of_ge (bits := 5) ha]
    · simp [assembleOperands, operandFits_of_ge (bits := 8) hb]
  · simp [assembleOperands, operandFits_of_ge (bits := 5) h]
  · obtain hi | hb := h
    · simp [assembleOperands, indexFits_of_ge hi]
    · simp [assembleOperands, operandFits_of_ge (bits := 8) hb]
  · simp [assembleOperands, indexFits_of_ge h]
  · simp [assembleOperands, operandFits_of_ge (bits := 32) h]

end Sys2Proof.Machine

/-! The statements on steps and runs: what every performed word leaves behind, the two invariants that every step keeps,
and a run as the program performed word by word (spec/10_state.md R20, R22, spec/30_encoding.md R41, R52, R55, R56,
spec/60_exceptions.md R107, R112, spec/70_reset_and_hazards.md R113, R121, R123). -/

namespace Sys2Proof.Machine

/-! ## A performed word (R41, R52, R107) -/

/-- Everything a performed word can do to the state: it is answered with status 0, the host's side kept and no flag
set, or it raises an error. -/
theorem perform_next_cases (cw : CmdWord) (s : State) :
    (∃ u val, perform cw s = .next (u.answer statusOk val) ∧ KeepsHost s u ∧ u.esr &&& s.esr = u.esr) ∨
      ∃ e, perform cw s = .next ((s.setEsr (setFlag e s.esr)).answer e.code 0) := by
  obtain ⟨i, -, hp⟩ | ⟨-, hp⟩ := perform_cases cw s
  · rw [hp]
    exact exec_cases i s
  · exact .inr ⟨_, hp⟩

/-- A performed word is answered on a state with the host's side as it was, by a response of the form R41 allows. -/
theorem perform_answers (cw : CmdWord) (s : State) : ∃ u st val,
    perform cw s = .next (u.answer st val) ∧ KeepsHost s u ∧ Response.wf ⟨st, val⟩ = true := by
  obtain ⟨u, val, h, hk, -⟩ | ⟨e, h⟩ := perform_next_cases cw s
  · exact ⟨u, statusOk, val, h, hk, rfl⟩
  · exact ⟨_, e.code, 0, h, ⟨rfl, rfl, rfl, rfl, id⟩, by cases e <;> rfl⟩

/-- Settles O13: the response and the advance of `pc` are those of `answer`, whichever way the word ends. -/
theorem everyWordIsAnsweredOnce : Obligations.EveryWordIsAnsweredOnce := by
  intro cw s
  obtain ⟨u, st, val, h, ⟨hpc, hprog, hrsps, hrst, -⟩, hwf⟩ := perform_answers cw s
  obtain ⟨hst, hval⟩ : st.toNat ≤ 4 ∧ (st = 0 ∨ val = 0) := by simpa [Response.wf] using hwf
  exact ⟨u.answer st val, ⟨st, val⟩, h, by simp [hrsps], by simp [hpc], hprog, hrst, hst, hval.resolve_left⟩

/-! ## The three kinds of step (R56, R112, R113) -/

/-- Settles O14: a reset and a held state are next states, and a word is answered. -/
theorem everyStepHasANextState : Obligations.EveryStepHasANextState := by
  intro s
  obtain ⟨-, h⟩ | ⟨-, cw, -, h⟩ | ⟨-, -, h⟩ := step_cases s
  · exact ⟨_, h⟩
  · obtain ⟨u, st, val, hp, -, -⟩ := perform_answers cw s
    exact ⟨_, h.trans hp⟩
  · exact ⟨_, h⟩

/-- A next state is that of the reset, that of the word performed, or the same. -/
theorem step_next_cases {s t : State} (h : step s = .next t) :
    t = s.applyRst ∨ (∃ cw, s.nextWord = some cw ∧ perform cw s = .next t) ∨ t = s := by
  obtain ⟨-, hs⟩ | ⟨-, cw, hcw, hs⟩ | ⟨-, -, hs⟩ := step_cases s
  · exact .inl (Host.Outcome.next.inj (h.symm.trans hs))
  · exact .inr (.inl ⟨cw, hcw, hs.symm.trans h⟩)
  · exact .inr (.inr (Host.Outcome.next.inj (h.symm.trans hs)))

theorem rstDue_eq_false_iff (s : State) : s.rstDue = false ↔ s.noRstDue := by
  unfold State.rstDue State.noRstDue
  cases s.rstAt <;> simp

theorem step_of_word {s : State} {cw : CmdWord} (hrst : s.noRstDue) (hcw : s.prog[s.pc]? = some cw) :
    step s = perform cw s := by
  simp [step, (rstDue_eq_false_iff s).mpr hrst, State.nextWord, hcw]

theorem step_at_end {s : State} (hrst : s.noRstDue) (hpc : s.prog.length ≤ s.pc) : step s = .next s := by
  simp [step, (rstDue_eq_false_iff s).mpr hrst, State.nextWord, hpc, hold]

/-- Settles O9: the word at `pc` is performed, as its command or as a refused word. -/
theorem stepRunsThePresentedWord : Obligations.StepRunsThePresentedWord := by
  intro s cw hrst hcw
  rw [step_of_word hrst hcw]
  exact ⟨fun i hi => by simp [perform, hi], fun e he => perform_of_refused ⟨e, he⟩ s⟩

/-- Settles O11: the head of the plan says whether a reset is due, and past the end there is no word. -/
theorem stepTakesRstOrHolds : Obligations.StepTakesRstOrHolds := by
  refine ⟨fun s k rest hplan hk => ?_, fun s hrst hpc => step_at_end hrst hpc⟩
  simp [step, State.rstDue, hplan, hk, State.applyRst]

/-! ## The invariants (R20, R22, R41) -/

theorem State.Inv.answer {s u : State} {st : BitVec 4} {val : Word} (hs : s.Inv) (hk : KeepsHost s u)
    (hword : s.pc < s.prog.length) (hwf : Response.wf ⟨st, val⟩ = true) : (u.answer st val).Inv := by
  obtain ⟨htb, -, hlen, hall⟩ := hs
  obtain ⟨hpc, hprog, hrsps, -, hkeep⟩ := hk
  refine ⟨hkeep htb, ?_, ?_, fun r hr => ?_⟩
  · simpa [hpc, hprog] using hword
  · simp [hpc, hrsps, hlen]
  · obtain hmem | rfl : r ∈ s.rsps ∨ r = ⟨st, val⟩ := by simpa [hrsps] using hr
    · exact hall r hmem
    · exact hwf

/-- Settles O15: `rst` empties the buffer and leaves the host's side alone, and a word is answered once. -/
theorem stepKeepsInv : Obligations.StepKeepsInv := by
  intro s t hs hstep
  obtain rfl | ⟨cw, hcw, h⟩ | rfl := step_next_cases hstep
  · obtain ⟨-, hhost⟩ := hs
    exact ⟨Memory.wf_reset, hhost⟩
  · obtain ⟨u, st, val, hp, hk, hwf⟩ := perform_answers cw s
    obtain rfl := Host.Outcome.next.inj (hp.symm.trans h)
    obtain ⟨hword, -⟩ := List.getElem?_eq_some_iff.mp hcw
    exact hs.answer hk hword hwf
  · exact hs

/-- A flag is up after an error is raised only if it is that error's or was up before (R101). -/
theorem getLsbD_setFlag {e e' : Err} {esr : EsrReg} (h : (setFlag e esr).getLsbD e'.flagBit = true) :
    e' = e ∨ esr.getLsbD e'.flagBit = true := by
  rw [setFlag, BitVec.getLsbD_or, Bool.or_eq_true] at h
  refine h.symm.imp (fun hbit => ?_) id
  revert hbit
  cases e <;> cases e' <;> decide

/-- Flags that a state still has are accounted for when no response is lost. -/
theorem State.flagsAccounted.mono {s t : State} (hs : s.flagsAccounted)
    (hesr : ∀ k, t.esr.getLsbD k = true → s.esr.getLsbD k = true) (hrsps : ∀ r ∈ s.rsps, r ∈ t.rsps) :
    t.flagsAccounted := by
  intro e he hbit
  obtain ⟨r, hr, hst⟩ := hs e he (hesr _ hbit)
  exact ⟨r, hrsps r hr, hst⟩

/-- Settles O16: `rst` clears the flags, a command that succeeds sets none, and a raised error answers its own code. -/
theorem stepKeepsFlagsAccounted : Obligations.StepKeepsFlagsAccounted := by
  intro s t hs hstep
  obtain rfl | ⟨cw, -, h⟩ | rfl := step_next_cases hstep
  · exact hs.mono (by simp) (by simp)
  · obtain ⟨u, val, hp, ⟨-, -, hrsps, -, -⟩, hesr⟩ | ⟨e, hp⟩ := perform_next_cases cw s
    · obtain rfl := Host.Outcome.next.inj (hp.symm.trans h)
      refine hs.mono (fun k hk => ?_) (fun r hr => by simp [hrsps, hr])
      rw [State.answer_esr, ← hesr, BitVec.getLsbD_and, Bool.and_eq_true] at hk
      exact hk.2
    · obtain rfl := Host.Outcome.next.inj (hp.symm.trans h)
      intro e' he' hbit
      obtain rfl | hset := getLsbD_setFlag hbit
      · exact ⟨⟨e'.code, 0⟩, by simp, rfl⟩
      · obtain ⟨r, hr, hst⟩ := hs e' he' hset
        exact ⟨r, by simp [hr], hst⟩
  · exact hs

/-- Settles O17: the buffer is empty, no flag is set and no response has been given. -/
theorem resetHasTheInvariants : Obligations.ResetHasTheInvariants :=
  ⟨⟨Memory.wf_reset, Nat.le_refl 0, rfl, by simp⟩, fun e _ hbit => by simp at hbit⟩

/-! ## Runs (R55, R121) -/

theorem run_succ_of_step {s u : State} (h : step s = .next u) (n : Nat) :
    Host.Core.run core (n + 1) s = Host.Core.run core n u := by
  simp only [Host.Core.run, core, h]

theorem run_of_held {s : State} (h : step s = .next s) (n : Nat) : Host.Core.run core n s = .next s := by
  induction n with
  | zero => rfl
  | succ n ih => rw [run_succ_of_step h, ih]

theorem performAll_cons_of_next {cw : CmdWord} {s u : State} (h : perform cw s = .next u) (cws : List CmdWord) :
    performAll (cw :: cws) s = performAll cws u := by
  simp only [performAll, h]

/-- Settles O18, by induction on the words left. -/
theorem runPerformsTheProgram : Obligations.RunPerformsTheProgram := by
  intro s hrst hpc
  generalize hleft : s.prog.length - s.pc = k
  induction k generalizing s with
  | zero =>
    have hend : s.prog.length ≤ s.pc := Nat.sub_eq_zero_iff_le.mp hleft
    refine ⟨s, ?_, rfl, hpc.antisymm hend, rfl, fun n => ?_⟩
    · rw [List.drop_eq_nil_of_le hend]
      rfl
    · exact run_of_held (step_at_end (by simp [State.noRstDue, hrst]) hend) _
  | succ k ih =>
    have hlt : s.pc < s.prog.length := by omega
    obtain ⟨u, st, val, hp, ⟨hpc', hprog, hrsps, hrst', -⟩, -⟩ := perform_answers s.prog[s.pc] s
    have hstep := (step_of_word (by simp [State.noRstDue, hrst]) (List.getElem?_eq_getElem hlt)).trans hp
    obtain ⟨t, hall, htprog, htpc, hlen, hrun⟩ := ih (u.answer st val) (by simp [hrst', hrst])
      (by simp [hpc', hprog, hlt]) (by simp only [State.answer_pc, State.answer_prog, hpc', hprog]; omega)
    simp only [State.answer_pc, State.answer_prog, State.answer_rsps, hpc', hprog, hrsps] at hall htprog htpc hlen
    refine ⟨t, ?_, htprog, htpc, ?_, fun n => ?_⟩
    · rw [List.drop_eq_getElem_cons hlt, performAll_cons_of_next hp, hall]
    · rw [hlen, List.length_append, List.length_singleton]
      omega
    · rw [Nat.add_right_comm, run_succ_of_step hstep, hrun]

end Sys2Proof.Machine

/-! The statements of spec/10_state.md on who reads and writes the registers: `esr` (R20), and `crc`, `mac` and `TB`
(R26). -/

namespace Sys2Proof.Machine

/-! ## How every command ends, whatever `esr` holds -/

/-- The ends a command can have from a state `s`, for every content `e` of `esr` at once: what it answers, which
register it writes, and the commands that write it (R26). Only `ESR.GET` and `ESR.CLR` read `esr`. -/
inductive Ends (i : Instr) (s : State) : Prop
  | answers (val : Word) (h : ∀ e, exec i (s.setEsr e) = respond statusOk val (s.setEsr e))
  | writesCrc (v : CrcReg) (hi : (∃ w, i = .crcSeed w) ∨ ∃ b, i = .crcByte b)
      (h : ∀ e, exec i (s.setEsr e) = respond statusOk 0 ((s.setEsr e).setCrc v))
  | writesMac (v : Mac) (hi : i = .macParse 17 ∨ ∃ k b, i = .macSetb k b)
      (h : ∀ e, exec i (s.setEsr e) = respond statusOk 0 ((s.setEsr e).setMac v))
  | writesTb (v : Memory) (val : Word) (hi : (∃ a b, i = .tbWr a b) ∨ i = .macFmt ∨ ∃ w, i = .aaFmt w)
      (h : ∀ e, exec i (s.setEsr e) = respond statusOk val ((s.setEsr e).setTb v))
  | readsEsr (hi : i = .esrGet)
  | clearsEsr (m : EsrReg) (hi : i = .esrClr m)
  | rejected (err : Err) (h : ∀ e, exec i (s.setEsr e) = raise err (s.setEsr e))

@[simp] theorem textOf_setEsr (s : State) (e : EsrReg) : textOf (s.setEsr e) = textOf s := rfl

/-- One case per command, and one per answer of its check. -/
theorem exec_ends (i : Instr) (s : State) : Ends i s := by
  cases i with
  | nop => exact .answers 0 fun _ => rfl
  | esrGet => exact .readsEsr rfl
  | esrClr m => exact .clearsEsr m rfl
  | crcSeed w => exact .writesCrc (seedField w) (.inl ⟨w, rfl⟩) fun _ => rfl
  | crcByte b => exact .writesCrc (crcByte s.crc b) (.inr ⟨b, rfl⟩) fun _ => rfl
  | crcGet => exact .answers (zext32 s.crc) fun _ => rfl
  | tbWr a b => exact .writesTb (s.tb.write a b) 0 (.inl ⟨a, b, rfl⟩) fun _ => rfl
  | tbRd a => exact .answers (zext32 (s.tb.read a)) fun _ => rfl
  | macParse w =>
    obtain ⟨-, h⟩ | ⟨-, h, -⟩ | ⟨hw, h, -⟩ := macValidate_cases w (textOf s)
    · exact .rejected .invalidLength fun _ => by simp [exec, execMacParse, h]
    · exact .rejected .invalidCharacter fun _ => by simp [exec, execMacParse, h]
    · exact .writesMac (macDecode (textOf s)) (.inl (congrArg Instr.macParse hw)) fun _ => by
        simp [exec, execMacParse, h]
  | macFmt => exact .writesTb (s.tb.writeText (macFormat s.mac) macTextLen) _ (.inr (.inl rfl)) fun _ => rfl
  | macSetb k b =>
    cases h : macIndex k with
    | some j => exact .writesMac (s.mac.set j b) (.inr ⟨k, b, rfl⟩) fun _ => by simp [exec, execMacSetb, h]
    | none => exact .rejected .illegalCommand fun _ => by simp [exec, execMacSetb, h]
  | macGetb k =>
    cases h : macIndex k with
    | some j => exact .answers (zext32 (s.mac.get j)) fun _ => by simp [exec, execMacGetb, h]
    | none => exact .rejected .illegalCommand fun _ => by simp [exec, execMacGetb, h]
  | macGetw k =>
    cases h : macIndex k with
    | some j => exact .answers (zext32 (s.mac.get (wireIndex j))) fun _ => by simp [exec, execMacGetw, h]
    | none => exact .rejected .illegalCommand fun _ => by simp [exec, execMacGetw, h]
  | aaParse w =>
    cases h : aaValidate w (textOf s) with
    | some err => exact .rejected err fun _ => by simp [exec, execAaParse, h]
    | none => exact .answers (aaDecode (textOf s)) fun _ => by simp [exec, execAaParse, h]
  | aaFmt w => exact .writesTb (s.tb.writeText (aaFormat w) aaTextLen) _ (.inr (.inr ⟨w, rfl⟩)) fun _ => rfl
  | chResolve w =>
    cases h : resolveChannel w with
    | some freq => exact .answers freq fun _ => by simp [exec, execChResolve, h]
    | none => exact .rejected .invalidChannel fun _ => by simp [exec, execChResolve, h]

/-! ## Who reads `esr` (R20) -/

/-- Settles O25: every end but those of the two commands excluded is the same for every content of `esr`. -/
theorem esrDisturbsNoOtherCommand : Obligations.EsrDisturbsNoOtherCommand := by
  intro i s e hget hclr
  cases exec_ends i s with
  | answers val h => exact ⟨_, e, h s.esr, h e⟩
  | writesCrc v _ h => exact ⟨_, e, h s.esr, h e⟩
  | writesMac v _ h => exact ⟨_, e, h s.esr, h e⟩
  | writesTb v val _ h => exact ⟨_, e, h s.esr, h e⟩
  | readsEsr hi => exact absurd hi hget
  | clearsEsr m hi => exact absurd hi (hclr m)
  | rejected err h => exact ⟨_, setFlag err e, h s.esr, h e⟩

/-! ## Who writes the registers (R20, R26) -/

/-- Settles O27: each end names the one register it writes. -/
theorem onlyTheListedCommandsWrite : Obligations.OnlyTheListedCommandsWrite := by
  intro i s
  cases exec_ends i s with
  | answers val h => exact ⟨_, h s.esr, .inl rfl, .inl rfl, .inl rfl⟩
  | writesCrc v hi h => exact ⟨_, h s.esr, .inr hi, .inl rfl, .inl rfl⟩
  | writesMac v hi h => exact ⟨_, h s.esr, .inl rfl, .inr hi, .inl rfl⟩
  | writesTb v val hi h => exact ⟨_, h s.esr, .inl rfl, .inl rfl, .inr hi⟩
  | readsEsr hi => exact hi ▸ ⟨_, rfl, .inl rfl, .inl rfl, .inl rfl⟩
  | clearsEsr m hi => exact hi ▸ ⟨_, rfl, .inl rfl, .inl rfl, .inl rfl⟩
  | rejected err h => exact ⟨_, h s.esr, .inl rfl, .inl rfl, .inl rfl⟩

/-- What performing a word makes of `esr`, by the status it answers: the rule of R20. -/
def EsrFollowsStatus (cw : CmdWord) (s : State) : Prop :=
  ∃ t r, perform cw s = .next t ∧ t.rsps = s.rsps ++ [r] ∧
    (r.st = 0 → t.esr = s.esr ∨ ∃ m, decode cw = .ok (.esrClr m) ∧ t.esr = s.esr &&& ~~~m) ∧
    (r.st ≠ 0 → t.esr = s.esr ||| (1#4 <<< (r.st.toNat - 1)))

theorem esrFollowsStatus_of_ok {cw : CmdWord} {s : State} (u : State) (val : Word)
    (h : perform cw s = respond statusOk val u) (hrsps : u.rsps = s.rsps)
    (hesr : u.esr = s.esr ∨ ∃ m, decode cw = .ok (.esrClr m) ∧ u.esr = s.esr &&& ~~~m) : EsrFollowsStatus cw s :=
  ⟨u.answer statusOk val, ⟨statusOk, val⟩, h, by simp [hrsps], fun _ => hesr, absurd rfl⟩

theorem esrFollowsStatus_of_raise {cw : CmdWord} {s : State} {err : Err} (h : perform cw s = raise err s) :
    EsrFollowsStatus cw s :=
  ⟨s.rejectedWith err.code, ⟨err.code, 0⟩, h, rfl, fun h0 => absurd h0 err.code_ne_statusOk, fun _ => rfl⟩

/-- Settles O24: of the ends with status 0 only that of `ESR.CLR` writes `esr`, and a raised error sets its own bit. -/
theorem esrWrittenOnlyByRaiseAndClear : Obligations.EsrWrittenOnlyByRaiseAndClear := by
  intro cw s
  obtain ⟨i, hd, hp⟩ | ⟨-, hp⟩ := perform_cases cw s
  · cases exec_ends i s with
    | answers val h => exact esrFollowsStatus_of_ok _ _ (hp.trans (h s.esr)) rfl (.inl rfl)
    | writesCrc v _ h => exact esrFollowsStatus_of_ok _ _ (hp.trans (h s.esr)) rfl (.inl rfl)
    | writesMac v _ h => exact esrFollowsStatus_of_ok _ _ (hp.trans (h s.esr)) rfl (.inl rfl)
    | writesTb v val _ h => exact esrFollowsStatus_of_ok _ _ (hp.trans (h s.esr)) rfl (.inl rfl)
    | readsEsr hi =>
      subst hi
      exact esrFollowsStatus_of_ok s _ hp rfl (.inl rfl)
    | clearsEsr m hi =>
      subst hi
      exact esrFollowsStatus_of_ok (s.setEsr (clearFlags m s.esr)) _ hp rfl (.inr ⟨m, hd, rfl⟩)
    | rejected err h => exact esrFollowsStatus_of_raise (hp.trans (h s.esr))
  · exact esrFollowsStatus_of_raise hp

end Sys2Proof.Machine

/-! The derived statements of spec/40_crc.md: the commands compute the document's function, undisturbed by others (R66),
and its three properties: linear, never merging, residue zero (R67). -/

namespace Sys2Proof.Machine

/-! ## The commands compute the function (R66) -/

theorem execAll_cons_of_next {i : Instr} {s u : State} (h : exec i s = .next u) (is : List Instr) :
    execAll (i :: is) s = execAll is u := by
  simp only [execAll, h]

/-- The state after one `CRC.BYTE` per byte: the bytes folded into `crc`, and a response `(0, 0)` for each. -/
def State.afterBytes (s : State) (data : List Byte) : State :=
  { s with
    crc := data.foldl crcByte s.crc, pc := s.pc + data.length
    rsps := s.rsps ++ List.replicate data.length ⟨0, 0⟩ }

theorem afterBytes_cons (s : State) (b : Byte) (data : List Byte) :
    s.afterBytes (b :: data) = ((s.setCrc (crcByte s.crc b)).answeredWith 0).afterBytes data := by
  simp [State.afterBytes, State.answeredWith, State.setCrc, List.replicate_succ, Nat.add_assoc, Nat.add_comm 1]

theorem execAll_crcBytes (data : List Byte) (rest : List Instr) (s : State) :
    execAll (data.map Instr.crcByte ++ rest) s = execAll rest (s.afterBytes data) := by
  induction data generalizing s with
  | nil => simp [State.afterBytes]
  | cons b data ih =>
    have hb : exec (.crcByte b) s = .next ((s.setCrc (crcByte s.crc b)).answeredWith 0) := respond_statusOk 0 _
    rw [List.map_cons, List.cons_append, execAll_cons_of_next hb, ih, afterBytes_cons]

/-- The register loaded by `CRC.SEED w` is the one that `compute_crc` starts from. -/
theorem ofNat_toNat_eq_seedField (w : Word) : BitVec.ofNat 24 w.toNat = seedField w :=
  BitVec.eq_of_toNat_eq (by simp [seedField])

/-- Settles O34: the seed, then the bytes folded in, then the register answered. -/
theorem commandsComputeTheCrc : Obligations.CommandsComputeTheCrc := by
  intro s seed data
  have hcrc : computeCrc seed.toNat data = data.foldl crcByte (seedField seed) := by
    rw [computeCrc, ofNat_toNat_eq_seedField]
  have hseed : exec (.crcSeed seed) s = .next ((s.setCrc (seedField seed)).answeredWith 0) := respond_statusOk 0 _
  rw [List.cons_append, execAll_cons_of_next hseed, execAll_crcBytes, hcrc, ← zext32_crc]
  refine ⟨_, rfl, ?_, rfl, rfl, rfl, rfl⟩
  simp [State.afterBytes, State.answeredWith, List.replicate_succ, statusOk]

/-- A command other than `CRC.SEED` and `CRC.BYTE` leaves `crc` alone. -/
theorem exec_keeps_crc {i : Instr} (hseed : ∀ w, i ≠ .crcSeed w) (hbyte : ∀ b, i ≠ .crcByte b) (s : State) :
    ∃ t, exec i s = .next t ∧ t.crc = s.crc := by
  obtain ⟨t, h, hcrc | ⟨w, hi⟩ | ⟨b, hi⟩, -, -⟩ := onlyTheListedCommandsWrite i s
  · exact ⟨t, h, hcrc⟩
  · exact absurd hi (hseed w)
  · exact absurd hi (hbyte b)

theorem fedBytes_of_crcByte {cw : CmdWord} {b : Byte} (h : decode cw = .ok (.crcByte b)) : fedBytes [cw] = [b] := by
  simp [fedBytes, h]

theorem fedBytes_of_other {cw : CmdWord} (h : ∀ b, decode cw ≠ .ok (.crcByte b)) : fedBytes [cw] = [] := by
  refine List.filterMap_cons_none ?_
  split
  · next b hb => exact absurd hb (h b)
  · rfl

/-- A word that is no `CRC.SEED` folds its data byte into `crc`, if it has one. -/
theorem perform_folds_fedBytes {cw : CmdWord} (hseed : ∀ w, decode cw ≠ .ok (.crcSeed w)) (s : State) :
    ∃ t, perform cw s = .next t ∧ t.crc = (fedBytes [cw]).foldl crcByte s.crc := by
  by_cases hbyte : ∃ b, decode cw = .ok (.crcByte b)
  · obtain ⟨b, hd⟩ := hbyte
    rw [fedBytes_of_crcByte hd]
    exact ⟨(s.setCrc (crcByte s.crc b)).answeredWith 0, by simp only [perform, hd]; rfl, rfl⟩
  · rw [not_exists] at hbyte
    rw [fedBytes_of_other hbyte]
    obtain ⟨i, hd, hp⟩ | ⟨-, hp⟩ := perform_cases cw s
    · rw [hp]
      exact exec_keeps_crc (fun w hi => hseed w (hi ▸ hd)) (fun b hi => hbyte b (hi ▸ hd)) s
    · exact ⟨s.rejectedWith 4, hp, rfl⟩

/-- Settles O35, by induction on the words. -/
theorem otherWordsDoNotDisturbTheCrc : Obligations.OtherWordsDoNotDisturbTheCrc := by
  intro cws
  induction cws with
  | nil => exact fun s _ => ⟨s, rfl, rfl⟩
  | cons cw cws ih =>
    intro s hseed
    obtain ⟨hcw, hcws⟩ := List.forall_mem_cons.mp hseed
    obtain ⟨u, hp, hu⟩ := perform_folds_fedBytes hcw s
    obtain ⟨t, hall, ht⟩ := ih u hcws
    have hfed : fedBytes (cw :: cws) = fedBytes [cw] ++ fedBytes cws := List.filterMap_append (l := [cw])
    refine ⟨t, ?_, ?_⟩
    · simp only [performAll, hp, hall]
    · rw [ht, hu, hfed, List.foldl_append]

/-! ## The bit step as XORs -/

/-- What the bit step XORs into the shifted register for a feedback bit: `TOP_BIT` and `POLY_MASK` joined (R58). -/
def feedbackMask (feedback : Bool) : CrcReg := if feedback then 0xDA6000 else 0

theorem feedbackMask_xor (b b' : Bool) : feedbackMask (b ^^ b') = feedbackMask b ^^^ feedbackMask b' := by
  revert b b'
  decide

theorem feedbackMask_getLsbD_top (b : Bool) : (feedbackMask b).getLsbD 23 = b := by
  revert b
  decide

/-- The shifted register has bit 23 clear, so the OR of `TOP_BIT` is an XOR. -/
theorem shift_or_topBit (s : CrcReg) : (s >>> 1) ||| topBit = (s >>> 1) ^^^ topBit := by
  have htop : topBit = BitVec.twoPow 24 23 := rfl
  ext j hj
  by_cases h : j = 23
  · simp [htop, BitVec.getElem_twoPow, h]
  · simp [htop, BitVec.getElem_twoPow, h]

theorem crcBit_eq_xor (s : CrcReg) (d : Bool) : crcBit s d = (s >>> 1) ^^^ feedbackMask (s.getLsbD 0 ^^ d) := by
  simp only [crcBit, shift_or_topBit, BitVec.xor_assoc]
  cases s.getLsbD 0 ^^ d with
  | true => rfl
  | false => exact BitVec.xor_zero.symm

/-! ## Linearity over XOR (R67a) -/

theorem crcBit_xor (s s' : CrcReg) (d d' : Bool) :
    crcBit (s ^^^ s') (d ^^ d') = crcBit s d ^^^ crcBit s' d' := by
  have hbit : ((s ^^^ s').getLsbD 0 ^^ (d ^^ d')) = ((s.getLsbD 0 ^^ d) ^^ (s'.getLsbD 0 ^^ d')) := by
    simp only [BitVec.getLsbD_xor, Bool.xor_assoc, Bool.xor_left_comm]
  rw [crcBit_eq_xor, crcBit_eq_xor, crcBit_eq_xor, hbit, feedbackMask_xor, BitVec.ushiftRight_xor_distrib]
  ac_rfl

/-- One byte's bits, in any order of positions: `crc_byte` takes bit 0 first (R59). -/
theorem foldl_crcBit_xor (js : List Nat) (s s' : CrcReg) (b b' : Byte) :
    js.foldl (fun r j => crcBit r ((b ^^^ b').getLsbD j)) (s ^^^ s') =
      js.foldl (fun r j => crcBit r (b.getLsbD j)) s ^^^ js.foldl (fun r j => crcBit r (b'.getLsbD j)) s' := by
  induction js generalizing s s' with
  | nil => rfl
  | cons j js ih => rw [List.foldl_cons, BitVec.getLsbD_xor, crcBit_xor, ih, List.foldl_cons, List.foldl_cons]

theorem crcByte_xor (s s' : CrcReg) (b b' : Byte) : crcByte (s ^^^ s') (b ^^^ b') = crcByte s b ^^^ crcByte s' b' :=
  foldl_crcBit_xor _ s s' b b'

theorem foldl_crcByte_xor {d d' : List Byte} (h : d.length = d'.length) (s s' : CrcReg) :
    (List.zipWith (· ^^^ ·) d d').foldl crcByte (s ^^^ s') = d.foldl crcByte s ^^^ d'.foldl crcByte s' := by
  induction d generalizing d' s s' with
  | nil =>
    obtain rfl := List.length_eq_zero_iff.mp h.symm
    rfl
  | cons b d ih =>
    obtain _ | ⟨b', d'⟩ := d'
    · cases h
    · rw [List.zipWith_cons_cons, List.foldl_cons, crcByte_xor, ih (Nat.succ.inj h), List.foldl_cons, List.foldl_cons]

/-- Settles O36: the seeds' low bits XOR, and so does each step. -/
theorem crcIsLinear : Obligations.CrcIsLinear := by
  intro s1 s2 d1 d2 h
  rw [computeCrc, BitVec.ofNat_xor, foldl_crcByte_xor h, computeCrc, computeCrc]

/-! ## Registers never merge (R67b) -/

/-- Bit 23 after the step is the feedback bit: the shift left it clear. -/
theorem crcBit_getLsbD_top (s : CrcReg) (d : Bool) : (crcBit s d).getLsbD 23 = (s.getLsbD 0 ^^ d) := by
  rw [crcBit_eq_xor, BitVec.getLsbD_xor, feedbackMask_getLsbD_top, BitVec.getLsbD_ushiftRight,
    BitVec.getLsbD_of_ge s _ (by decide), Bool.false_xor]

/-- With the feedback taken back out, the shifted register is left. -/
theorem crcBit_xor_feedbackMask (s : CrcReg) (d : Bool) :
    crcBit s d ^^^ feedbackMask ((crcBit s d).getLsbD 23) = s >>> 1 := by
  rw [crcBit_getLsbD_top, crcBit_eq_xor, BitVec.xor_assoc, BitVec.xor_self, BitVec.xor_zero]

theorem getLsbD_zero_eq_of_crcBit (s : CrcReg) (d : Bool) : s.getLsbD 0 = ((crcBit s d).getLsbD 23 ^^ d) := by
  rw [crcBit_getLsbD_top, Bool.xor_assoc, Bool.xor_self, Bool.xor_false]

/-- A register is its bits above 0, which the shift keeps, and bit 0. -/
theorem eq_of_shift_eq {s s' : CrcReg} (hshift : s >>> 1 = s' >>> 1) (hzero : s.getLsbD 0 = s'.getLsbD 0) : s = s' := by
  refine BitVec.eq_of_getLsbD_eq fun j _ => ?_
  cases j with
  | zero => exact hzero
  | succ j => simpa [Nat.add_comm] using congrArg (BitVec.getLsbD · j) hshift

theorem crcBit_left_injective (d : Bool) : Function.Injective (crcBit · d) := by
  intro s s' (h : crcBit s d = crcBit s' d)
  refine eq_of_shift_eq ?_ ?_
  · rw [← crcBit_xor_feedbackMask s d, ← crcBit_xor_feedbackMask s' d, h]
  · rw [getLsbD_zero_eq_of_crcBit s d, getLsbD_zero_eq_of_crcBit s' d, h]

/-- Steps that never merge two registers do not merge them one after the other. -/
theorem foldl_left_injective {α β : Type} {f : α → β → α} (hf : ∀ b, Function.Injective (f · b)) (l : List β) :
    Function.Injective (l.foldl f) := by
  induction l with
  | nil => exact fun _ _ h => h
  | cons b l ih => exact fun _ _ h => hf b (ih h)

theorem crcByte_left_injective (b : Byte) : Function.Injective (crcByte · b) :=
  foldl_left_injective (fun j => crcBit_left_injective (b.getLsbD j)) _

/-- Settles O37: a step keeps the shifted register under a mask that its own bit 23 names, and it folds bit 0 into that
bit. -/
theorem crcStepsNeverMerge : Obligations.CrcStepsNeverMerge := by
  refine ⟨fun s d => ⟨?_, getLsbD_zero_eq_of_crcBit s d⟩, fun s1 s2 data h => ?_⟩
  · have hshift := crcBit_xor_feedbackMask s d
    rw [feedbackMask] at hshift
    rw [hshift]
    ext j hj
    simp
  · have hseed : BitVec.ofNat 24 s1 = BitVec.ofNat 24 s2 := foldl_left_injective crcByte_left_injective data h
    rw [← toNat_computeCrc_nil, ← toNat_computeCrc_nil]
    exact congrArg BitVec.toNat hseed

/-! ## The residue (R67c) -/

/-- Its own lowest bit fed into a register gives no feedback: the register is only shifted. -/
theorem crcBit_own_bit (c : CrcReg) : crcBit c (c.getLsbD 0) = c >>> 1 := by
  rw [crcBit_eq_xor, Bool.xor_self]
  exact BitVec.xor_zero

/-- The first `n` bits of a byte, fed into a register whose low bits they are. -/
theorem foldl_crcBit_own_bits {c : CrcReg} {b : Byte} {n : Nat} (h : ∀ j < n, b.getLsbD j = c.getLsbD j) :
    (List.range n).foldl (fun r j => crcBit r (b.getLsbD j)) c = c >>> n := by
  induction n with
  | zero => exact (BitVec.ushiftRight_zero c).symm
  | succ n ih =>
    have hbit : b.getLsbD n = (c >>> n).getLsbD 0 := by simpa using h n (Nat.lt_succ_self n)
    rw [List.range_succ, List.foldl_append, ih fun j hj => h j (Nat.lt_succ_of_lt hj), List.foldl_cons, List.foldl_nil,
      hbit, crcBit_own_bit, BitVec.shiftRight_add]

/-- Feeding a register the byte that it holds at bit `k`, when it has been shifted there. -/
theorem crcByte_own_byte (c : CrcReg) (k : Nat) : crcByte (c >>> k) (c.extractLsb' k 8) = c >>> (k + 8) := by
  rw [BitVec.shiftRight_add]
  refine foldl_crcBit_own_bits (n := 8) fun j hj => ?_
  simp [hj]

/-- Settles O38: three bytes of its own shift the register out. -/
theorem crcResidueIsZero : Obligations.CrcResidueIsZero := by
  intro seed data c
  have hfirst := crcByte_own_byte c 0
  rw [BitVec.ushiftRight_zero] at hfirst
  rw [computeCrc_append]
  show crcByte (crcByte (crcByte c (c.extractLsb' 0 8)) (c.extractLsb' 8 8)) (c.extractLsb' 16 8) = 0
  rw [hfirst, crcByte_own_byte, crcByte_own_byte]
  exact BitVec.ushiftRight_eq_zero (Nat.le_refl 24)

end Sys2Proof.Machine

/-! The derived statements on the text buffer and its texts: canonical buffers (spec/20_memory.md), the MAC text and the
wire order (spec/42_mac.md R80 to R82), the access-address text (spec/43_access_address.md R88), the bytes a parse
ignores (R38) and the one hazard of values (spec/70_reset_and_hazards.md R118). -/

namespace Sys2Proof.Machine

/-! ## Canonical buffers (log entry 9) -/

theorem Memory.lookup_head (k : Nat) (v : Byte) (m : Memory) : Memory.lookup ((k, v) :: m) k = v := if_pos rfl

theorem Memory.lookup_tail {k j : Nat} (v : Byte) (m : Memory) (h : k ≠ j) :
    Memory.lookup ((k, v) :: m) j = Memory.lookup m j := if_neg h

/-- A byte that a rising list finds at its first key stands in no list whose keys all lie above. -/
theorem Memory.head_key_le {lo lo' k k' : Nat} {v v' : Byte} {m m' : Memory}
    (hm : Memory.wfFrom lo ((k, v) :: m) = true) (hm' : Memory.wfFrom lo' ((k', v') :: m') = true)
    (h : Memory.lookup ((k, v) :: m) k = Memory.lookup ((k', v') :: m') k) : k' ≤ k := by
  obtain ⟨-, -, hv, -⟩ := Memory.wfFrom_cons.mp hm
  obtain ⟨-, hrest'⟩ := Memory.wfFrom_cons.mp hm'
  by_contra hlt
  have hfrom : Memory.wfFrom k' ((k', v') :: m') = true := Memory.wfFrom_cons.mpr ⟨Nat.le_refl k', hrest'⟩
  rw [Memory.lookup_head, Memory.lookup_below hfrom (Nat.lt_of_not_le hlt)] at h
  exact hv h

/-- Rising lists that look up alike at every address are equal, entry by entry. -/
theorem Memory.eq_of_lookup_eq {lo : Nat} {m m' : Memory} (hm : Memory.wfFrom lo m = true)
    (hm' : Memory.wfFrom lo m' = true) (h : ∀ k < tbSize, Memory.lookup m k = Memory.lookup m' k) : m = m' := by
  induction m generalizing lo m' with
  | nil =>
    obtain _ | ⟨⟨k', v'⟩, m'⟩ := m'
    · rfl
    · obtain ⟨-, hk', hv', -⟩ := Memory.wfFrom_cons.mp hm'
      exact absurd ((h k' hk').trans (Memory.lookup_head k' v' m')).symm hv'
  | cons c m ih =>
    obtain ⟨k, v⟩ := c
    obtain ⟨-, hk, hv, hrest⟩ := Memory.wfFrom_cons.mp hm
    obtain _ | ⟨⟨k', v'⟩, m'⟩ := m'
    · exact absurd ((Memory.lookup_head k v m).symm.trans (h k hk)) hv
    · obtain ⟨-, hk', -, hrest'⟩ := Memory.wfFrom_cons.mp hm'
      obtain rfl : k = k' :=
        Nat.le_antisymm (Memory.head_key_le hm' hm (h k' hk').symm) (Memory.head_key_le hm hm' (h k hk))
      have hhead := h k hk
      rw [Memory.lookup_head, Memory.lookup_head] at hhead
      rw [hhead, ih hrest hrest' fun j hj => ?_]
      obtain hjk | hkj := Nat.lt_or_ge j (k + 1)
      · rw [Memory.lookup_below hrest hjk, Memory.lookup_below hrest' hjk]
      · have hne : k ≠ j := by omega
        have htail := h j hj
        rwa [Memory.lookup_tail v m hne, Memory.lookup_tail v' m' hne] at htail

/-- Settles O41: the canonical form is the rising list, and the 32 addresses are all its keys. -/
theorem canonicalBuffersAreEqual : Obligations.CanonicalBuffersAreEqual :=
  fun _ _ hm hm' h => Memory.eq_of_lookup_eq hm hm' fun k hk => by
    simpa [Memory.read, Nat.mod_eq_of_lt (show k < 32 from hk)] using h (BitVec.ofNat 5 k)

/-! ## Digits read back and written back (R8, R9) -/

theorem isHex_colon : isHex colon = false := by decide

theorem lowerHex_colon : lowerHex colon = colon := by decide

/-- Writing the value of a digit gives the digit in lower case, over the 22 digits. -/
theorem hexchar_hexval {c : Byte} (h : isHex c = true) : hexchar (hexval c) = lowerHex c := by
  obtain ⟨hlist, -, -⟩ := hexDigits
  have hc := (hlist c).mp h
  fin_cases hc <;> rfl

/-- A byte is its two nibbles, so it is read back from its two digits (R10). -/
theorem byteOf_hexchar (b : Byte) : byteOf (hexchar (b.extractLsb' 4 4)) (hexchar (b.extractLsb' 0 4)) = b := by
  rw [byteOf, hexval_hexchar, hexval_hexchar]
  exact BitVec.extractLsb'_append_extractLsb' (w := 4) (len := 4)

theorem byteOf_high (cHi cLo : Byte) : (byteOf cHi cLo).extractLsb' 4 4 = hexval cHi :=
  BitVec.extractLsb'_append_eq_left

theorem byteOf_low (cHi cLo : Byte) : (byteOf cHi cLo).extractLsb' 0 4 = hexval cLo :=
  BitVec.extractLsb'_append_eq_right

/-! ## The positions a text is read at (R38, R72, R83) -/

theorem macCharBad_congr {t t' : Nat → Byte} {p : Nat} (h : t p = t' p) : MacCharBad t p ↔ MacCharBad t' p := by
  rw [MacCharBad, MacCharBad, h]

theorem macValidate_congr {t t' : Nat → Byte} (h : ∀ p < 17, t p = t' p) (w : Word) :
    macValidate w t = macValidate w t' := by
  obtain ⟨hw, hv⟩ | ⟨rfl, hv, p, hp, hbad⟩ | ⟨rfl, hv, hgood⟩ := macValidate_cases w t
  · rw [hv, macValidate_of_ne hw]
  · rw [hv, macValidate_of_bad ⟨p, hp, (macCharBad_congr (h p hp)).mp hbad⟩]
  · rw [hv, macValidate_of_good fun p hp => (macCharBad_congr (h p hp)).not.mp (hgood p hp)]

theorem Mac.ext_get {m m' : Mac} (h : ∀ k, m.get k = m'.get k) : m = m' := by
  obtain ⟨b0, b1, b2, b3, b4, b5⟩ := m
  obtain ⟨c0, c1, c2, c3, c4, c5⟩ := m'
  obtain rfl : b0 = c0 := h 0
  obtain rfl : b1 = c1 := h 1
  obtain rfl : b2 = c2 := h 2
  obtain rfl : b3 = c3 := h 3
  obtain rfl : b4 = c4 := h 4
  obtain rfl : b5 = c5 := h 5
  rfl

theorem macDecode_congr {t t' : Nat → Byte} (h : ∀ p < 17, t p = t' p) : macDecode t = macDecode t' := by
  refine Mac.ext_get fun g => ?_
  rw [macDecode_get, macDecode_get, h (3 * g.val) (by omega), h (3 * g.val + 1) (by omega)]

theorem aaValidate_congr {t t' : Nat → Byte} (h : ∀ p < 8, t p = t' p) (w : Word) :
    aaValidate w t = aaValidate w t' := by
  obtain ⟨hw, hv⟩ | ⟨rfl, hv, p, hp, hbad⟩ | ⟨rfl, hv, hgood⟩ := aaValidate_cases w t
  · rw [hv, aaValidate_of_ne hw]
  · rw [hv, aaValidate_of_bad ⟨p, hp, h p hp ▸ hbad⟩]
  · rw [hv, aaValidate_of_good fun p hp => h p hp ▸ hgood p hp]

/-- Values with equal digits are equal: bit `j` is in digit `7 - j / 4`. -/
theorem eq_of_digits_eq {x y : Word} (h : ∀ p < 8, x.extractLsb' (28 - 4 * p) 4 = y.extractLsb' (28 - 4 * p) 4) :
    x = y := by
  refine BitVec.eq_of_getLsbD_eq fun j hj => ?_
  have hp := congrArg (BitVec.getLsbD · (j % 4)) (h (7 - j / 4) (by omega))
  have hpos : 28 - 4 * (7 - j / 4) + j % 4 = j := by omega
  simpa [hpos, Nat.mod_lt] using hp

theorem aaDecode_congr {t t' : Nat → Byte} (h : ∀ p < 8, t p = t' p) : aaDecode t = aaDecode t' := by
  refine eq_of_digits_eq fun p hp => ?_
  rw [aaDecode_digit t hp, aaDecode_digit t' hp, h p hp]

/-- Texts of buffers that agree below an address agree below it. -/
theorem textOf_congr {s s' : State} {n : Nat} (hn : n ≤ 32) (h : ∀ a : Addr, a.toNat < n → s.tb.read a = s'.tb.read a) :
    ∀ p < n, textOf s p = textOf s' p := by
  intro p hp
  have hmod : (BitVec.ofNat 5 p).toNat = p := Nat.mod_eq_of_lt (hp.trans_le hn)
  exact h _ (hmod.symm ▸ hp)

/-- Settles O51: validation and decoding agree, so both commands end alike. -/
theorem parseIgnoresBytesBeyondTheText : Obligations.ParseIgnoresBytesBeyondTheText := by
  refine fun w s m => ⟨fun h => ?_, fun h => ?_⟩
  · have ht : ∀ p < 17, textOf (s.setTb m) p = textOf s p := textOf_congr (by decide) h
    have hv := macValidate_congr ht w
    cases hs : macValidate w (textOf s) with
    | some e => exact ⟨_, exec_macParse_of_error hs, exec_macParse_of_error (hv.trans hs)⟩
    | none =>
      refine ⟨_, exec_macParse_of_ok hs, ?_⟩
      rw [← macDecode_congr ht]
      exact exec_macParse_of_ok (hv.trans hs)
  · have ht : ∀ p < 8, textOf (s.setTb m) p = textOf s p := textOf_congr (by decide) h
    have hv := aaValidate_congr ht w
    cases hs : aaValidate w (textOf s) with
    | some e => exact ⟨_, exec_aaParse_of_error hs, exec_aaParse_of_error (hv.trans hs)⟩
    | none =>
      refine ⟨_, exec_aaParse_of_ok hs, ?_⟩
      rw [← aaDecode_congr ht]
      exact exec_aaParse_of_ok (hv.trans hs)

/-! ## The MAC text and back (R82) -/

/-- A position of a MAC text is the first digit of a group, its second, or the separator after it. -/
theorem macPosition_cases {p : Nat} (hp : p < 17) :
    (∃ g : Fin 6, p = 3 * g.val) ∨ (∃ g : Fin 6, p = 3 * g.val + 1) ∨ ∃ g, p = 3 * g + 2 := by
  have hmod : p % 3 = 0 ∨ p % 3 = 1 ∨ p % 3 = 2 := by omega
  obtain h | h | h := hmod
  · exact .inl ⟨⟨p / 3, by omega⟩, by simp only; omega⟩
  · exact .inr (.inl ⟨⟨p / 3, by omega⟩, by simp only; omega⟩)
  · exact .inr (.inr ⟨p / 3, by omega⟩)

/-- What `mac_format` writes passes `mac_validate` (R73, R76). -/
theorem not_macCharBad_macFormat (m : Mac) {p : Nat} (hp : p < 17) : ¬MacCharBad (macFormat m) p := by
  rw [not_macCharBad_iff]
  obtain ⟨g, rfl⟩ | ⟨g, rfl⟩ | ⟨g, rfl⟩ := macPosition_cases hp
  · exact ⟨fun h => by omega, fun _ => by rw [macFormat_high, isHex_hexchar]⟩
  · exact ⟨fun h => by omega, fun _ => by rw [macFormat_low, isHex_hexchar]⟩
  · exact ⟨fun _ => macFormat_separator m g, fun h => by omega⟩

theorem macDecode_macFormat (m : Mac) : macDecode (macFormat m) = m := by
  refine Mac.ext_get fun g => ?_
  rw [macDecode_get, macFormat_high, macFormat_low, byteOf_hexchar]

/-- The state after `MAC.FMT` (R77). -/
def State.afterMacFmt (s : State) : State :=
  (s.setTb (s.tb.writeText (macFormat s.mac) macTextLen)).answeredWith 17

theorem exec_macFmt_next (s : State) : exec .macFmt s = .next s.afterMacFmt := exec_macFmt s

theorem textOf_afterMacFmt (s : State) {p : Nat} (hp : p < 17) : textOf s.afterMacFmt p = macFormat s.mac p :=
  Memory.read_writeText_ofNat s.tb (macFormat s.mac) (n := macTextLen) (by decide) hp

/-- Settles O48: the text written is the one parsed, and it decodes to the `mac` it was written from. -/
theorem macFormatThenParse : Obligations.MacFormatThenParse := by
  intro s
  have htext : ∀ p < 17, textOf s.afterMacFmt p = macFormat s.mac p := fun _ => textOf_afterMacFmt s
  have hok : macValidate 17 (textOf s.afterMacFmt) = none := by
    rw [macValidate_congr htext]
    exact macValidate_of_good fun p hp => not_macCharBad_macFormat s.mac hp
  have hdec : macDecode (textOf s.afterMacFmt) = s.mac := by rw [macDecode_congr htext, macDecode_macFormat]
  rw [execAll_cons_of_next (exec_macFmt_next s), execAll_cons_of_next (exec_macParse_of_ok hok)]
  refine ⟨_, rfl, ?_, hdec, rfl, rfl, fun a ha => ?_⟩
  · simp [State.afterMacFmt, State.answeredWith]
  · exact Memory.read_writeText_beyond s.tb _ (n := macTextLen) (by decide) ha

/-- Settles O49, by the three kinds of position: two digits of a group and the separator. -/
theorem macFormatOfDecodeIsLowerCase : Obligations.MacFormatOfDecodeIsLowerCase := by
  intro t ht p hp
  obtain ⟨hne, -⟩ | ⟨-, hsome, -⟩ | ⟨-, -, hgood⟩ := macValidate_cases 17 t
  · exact absurd rfl hne
  · exact absurd (ht.symm.trans hsome) nofun
  obtain ⟨hsep, hdigit⟩ := (not_macCharBad_iff t p).mp (hgood p hp)
  obtain ⟨g, rfl⟩ | ⟨g, rfl⟩ | ⟨g, rfl⟩ := macPosition_cases hp
  · rw [macFormat_high, macDecode_get, byteOf_high, hexchar_hexval (hdigit (by omega))]
  · rw [macFormat_low, macDecode_get, byteOf_low, hexchar_hexval (hdigit (by omega))]
  · rw [macFormat_separator, hsep (by omega), lowerHex_colon]

/-! ## The access-address text and back (R88) -/

theorem aaDecode_aaFormat (x : Word) : aaDecode (aaFormat x) = x := by
  refine eq_of_digits_eq fun p hp => ?_
  rw [aaDecode_digit _ hp, aaFormat, hexval_hexchar]

/-- The state after `AA.FMT w` (R87). -/
def State.afterAaFmt (s : State) (w : Word) : State :=
  (s.setTb (s.tb.writeText (aaFormat w) aaTextLen)).answeredWith 8

theorem exec_aaFmt_next (w : Word) (s : State) : exec (.aaFmt w) s = .next (s.afterAaFmt w) := exec_aaFmt w s

theorem textOf_afterAaFmt (s : State) (w : Word) {p : Nat} (hp : p < 8) : textOf (s.afterAaFmt w) p = aaFormat w p :=
  Memory.read_writeText_ofNat s.tb (aaFormat w) (n := aaTextLen) (by decide) hp

/-- Settles O55: the text written is the one parsed, and it decodes to the value it was written from. -/
theorem aaFormatThenParse : Obligations.AaFormatThenParse := by
  intro s x
  have htext : ∀ p < 8, textOf (s.afterAaFmt x) p = aaFormat x p := fun _ => textOf_afterAaFmt s x
  have hok : aaValidate 8 (textOf (s.afterAaFmt x)) = none := by
    rw [aaValidate_congr htext]
    exact aaValidate_of_good fun p _ => isHex_hexchar _
  have hdec : aaDecode (textOf (s.afterAaFmt x)) = x := by rw [aaDecode_congr htext, aaDecode_aaFormat]
  rw [execAll_cons_of_next (exec_aaFmt_next x s), execAll_cons_of_next (exec_aaParse_of_ok hok), hdec]
  refine ⟨_, rfl, ?_, rfl, rfl, rfl, fun a ha => ?_⟩
  · simp [State.afterAaFmt, State.answeredWith]
  · exact Memory.read_writeText_beyond s.tb _ (n := aaTextLen) (by decide) ha

/-- Settles O56: each digit of the value is that of its character. -/
theorem aaFormatOfDecodeIsLowerCase : Obligations.AaFormatOfDecodeIsLowerCase := by
  intro t ht p hp
  obtain ⟨hne, -⟩ | ⟨-, hsome, -⟩ | ⟨-, -, hgood⟩ := aaValidate_cases 8 t
  · exact absurd rfl hne
  · exact absurd (ht.symm.trans hsome) nofun
  rw [aaFormat, aaDecode_digit t hp, hexchar_hexval (hgood p hp)]

/-! ## The hazard of the shared buffer (R118) -/

/-- `AA.FMT` leaves a hex digit at position 2, where a MAC text has its separator. -/
theorem macValidate_afterAaFmt (s : State) (w : Word) :
    macValidate 17 (textOf (s.afterAaFmt w)) = some .invalidCharacter := by
  have hdigit : isHex (textOf (s.afterAaFmt w) 2) = true := by
    rw [textOf_afterAaFmt s w (by decide)]
    exact isHex_hexchar _
  refine macValidate_of_bad ⟨2, by decide, .inl ⟨rfl, fun hcolon => ?_⟩⟩
  rw [hcolon, isHex_colon] at hdigit
  cases hdigit

/-- Settles O52: the text that `AA.FMT` leaves fails the parse, whatever `MAC.FMT` had written. -/
theorem sharedBufferHazard : Obligations.SharedBufferHazard := by
  intro s w
  have hbad := exec_macParse_of_error (macValidate_afterAaFmt s.afterMacFmt w)
  rw [execAll_cons_of_next (exec_macFmt_next s), execAll_cons_of_next (exec_aaFmt_next w _), execAll_cons_of_next hbad]
  refine ⟨_, rfl, ?_, rfl, rfl⟩
  simp [State.afterMacFmt, State.afterAaFmt, State.answeredWith, State.rejectedWith, Err.code]

/-! ## Wire order and reserved indices (R48, R80, R81) -/

theorem macIndex_sub {i : IndexField} {k : Fin 6} (h : macIndex i = some k) : macIndex (5 - i) = some k.rev := by
  revert i k
  decide

/-- Settles O50: the byte at wire position `i` is the one at index `5 - i` in display order. -/
theorem wireOrderReverses : Obligations.WireOrderReverses := by
  refine ⟨Mac.get_wire, fun _ => rfl, fun i s hi => ?_⟩
  obtain ⟨k, hk, -⟩ := macIndex_of_le hi
  rw [exec_macGetw_of_index hk, exec_macGetb_of_index (macIndex_sub hk), wireIndex]

/-- Settles O28: a reserved index names no byte of `mac`. -/
theorem reservedIndexIsRejected : Obligations.ReservedIndexIsRejected := by
  intro i b s h
  have hnone : macIndex i = none := macIndex_of_reserved (decide_eq_false (by omega))
  have hraise : raise .illegalCommand s = .next (s.rejectedWith 4) := raise_eq_rejectedWith .illegalCommand s
  simp only [exec, execMacSetb, execMacGetb, execMacGetw, hnone, hraise, and_self]

end Sys2Proof.Machine
